-- ==== Sys2Proof/Word.lean ====
section
/-! DEFINITION. The words of the block: bytes of the bus and flash addresses (spec 00 R7, R12). -/

namespace Sys2Proof

/-- One bus transfer, `BYTE_W` = 8 bits, unsigned (00 R7, R11). -/
abbrev Byte := BitVec 8

/-- A flash address, `ADDR_W` = 24 bits, unsigned (00 R7; 92 D12). -/
abbrev Addr := BitVec 24

end Sys2Proof
end

