-- ==== Sys2Proof/Config.lean ====
section
/-! DEFINITION. What the spec leaves to the platform or to the environment: the open parameters of 00 R7 and the
free value that stands for an answer of the environment. None of the three constants below has a body, so a
statement holds for every value of it. -/

namespace Sys2Proof

/-- The two readings of the order of write-enable and pre-poll in WRITE_SR1/2/3 (00 R7 `SRW_ORDER`; 92 D5). The spec
chooses `wePollWrite`; the constant that says so is `Machine.srwOrder`. -/
inductive SrwOrder where
  | wePollWrite
  | pollWeWrite
  deriving DecidableEq, Repr

/-- FREE VALUE (log entry 2): the `k`-th answer the environment gives after the answers listed in `Env.replies` have run
out. The environment chooses every answer and the block places no condition on it (00 R8, R11; 40 R113). -/
opaque Config.freeReply : Nat → Byte

/-- OPEN PARAMETER (log entry 10): by how much `LEN_W` exceeds its least value 9 (00 R7; 92 D11). -/
opaque Config.lenExtra : Nat

/-- `LEN_W`, the width of the length field of a request: open, at least 9 (00 R7; 92 D11). -/
def Config.lenW : Nat := 9 + Config.lenExtra

/-- The length field of a request, `LEN_W` bits (00 R7, R9; 10 R23). -/
abbrev Len := BitVec Config.lenW

/-- OPEN PARAMETER (log entry 11): the chip size less one (00 R7 `CHIP_SIZE`; 91 N3). -/
opaque Config.chipSizeLessOne : BitVec 24

/-- `CHIP_SIZE`, bytes in the chip: open, with 0 < `CHIP_SIZE` ≤ 2^24 (00 R7). No rule of the block reads it. -/
def Config.chipSize : Nat := Config.chipSizeLessOne.toNat + 1

end Sys2Proof
end

