-- ==== Sys2Proof/Syntax.lean ====
section
/-! DEFINITION. The instructions: one constructor per row of spec/opcode_table.json (30 R86), carrying the operands its
row of the operation table reads (30 R90), and after them the six operations of 30 R90 that no row of the table
stands for (log entry 6). -/

namespace Sys2Proof

/-- An instruction of the sequencer, with its operands. The first 26 constructors are the rows of 30 R86 in the table's
order. The last six are operations of 30 R90 whose wire behaviour is that of other commands (30 R89, R92). -/
inductive Instr where
  /-- MFR_DEVICE_ID, 0x90, read 5 (42 R150). -/
  | mfrDeviceId
  /-- JEDEC_ID, 0x9F, read 3 (42 R151). -/
  | jedecId
  /-- UNIQUE_ID, 0x48, read 5 (42 R152). -/
  | uniqueId
  /-- READ_DATA, 0x03, address, read `len` (43 R160). -/
  | readData (addr : Addr) (len : Nat)
  /-- FAST_READ, 0x0B, address, read `len` (43 R161). -/
  | fastRead (addr : Addr) (len : Nat)
  /-- PAGE_PROGRAM, 0x02, address, write `wdata` (44 R170). -/
  | pageProgram (addr : Addr) (wdata : List Byte)
  /-- SECTOR_ERASE, 0x20, address (44 R171). -/
  | sectorErase (addr : Addr)
  /-- BLOCK_ERASE with `bop` = 0x52, address (44 R172; 30 R91). -/
  | blockErase32k (addr : Addr)
  /-- BLOCK_ERASE with `bop` = 0xD8, address (44 R172; 30 R91). -/
  | blockErase64k (addr : Addr)
  /-- CHIP_ERASE, 0x60 (44 R173). -/
  | chipErase
  /-- WRITE_ENABLE, 0x06 (41 R135). -/
  | writeEnable
  /-- WRITE_DISABLE, 0x04 (41 R136). -/
  | writeDisable
  /-- VOLATILE_SR_WRITE_ENABLE, 0x50 (41 R137). -/
  | volatileSrWriteEnable
  /-- READ_SR1, 0x05, read 1 (45 R185). -/
  | readSr1
  /-- WRITE_SR1, 0x01, write 1 (45 R191). -/
  | writeSr1 (wval : Byte)
  /-- READ_SR2, 0x35, read 1 (45 R186). -/
  | readSr2
  /-- WRITE_SR2, 0x31, write 1 (45 R192). -/
  | writeSr2 (wval : Byte)
  /-- READ_SR3, 0x15, read 1 (45 R187). -/
  | readSr3
  /-- WRITE_SR3, 0x11, write 1 (45 R193). -/
  | writeSr3 (wval : Byte)
  /-- GLOBAL_LOCK, 0x7E (46 R200). -/
  | globalLock
  /-- GLOBAL_UNLOCK, 0x98 (46 R201). -/
  | globalUnlock
  /-- POWER_DOWN, 0xB9 (46 R202). -/
  | powerDown
  /-- RELEASE_POWER_DOWN, 0xAB alone (46 R203). -/
  | releasePowerDown
  /-- RELEASE_POWER_DOWN_ID, 0xAB, read 4 (46 R204). -/
  | releasePowerDownId
  /-- ENABLE_RESET, 0x66 (46 R205). -/
  | enableReset
  /-- RESET_DEVICE, 0x99 (46 R206). -/
  | resetDevice
  /-- BLOCK_ERASE with any other `bop`, sent unchanged (30 R89; 44 R172; 92 D6). -/
  | blockErase (addr : Addr) (bop : Byte)
  /-- RESET, the composite (46 R207). -/
  | reset
  /-- IS_BUSY, a query over READ_SR1 (41 R132). -/
  | isBusy
  /-- IS_WRITE_ENABLED, a query over READ_SR1 (41 R133). -/
  | isWriteEnabled
  /-- BLOCK_PROTECT_BITS, a query over READ_SR1 (41 R134). -/
  | blockProtectBits
  /-- WAIT_IDLE, the polling loop as an operation (41 R139). -/
  | waitIdle
  deriving DecidableEq, Repr

end Sys2Proof
end

