-- ==== Sys2Proof/WellFormed.lean ====
section
/-! DEFINITION. Which terms of `Instr` a request can carry. -/

namespace Sys2Proof

/-- The checks on an instruction as syntax. The length operand fits the `LEN_W` bits of the request's field (00 R7, R9;
10 R23). A BLOCK_ERASE with one of the two legal opcodes is written by its own constructor (30 R91), so that every
request has one term. Nothing else is checked: addresses, data lengths and `bop` are sent as they are (20 R54, R55;
30 R89). -/
def Instr.wellFormed : Instr → Bool
  | .readData _ len => decide (len < 2 ^ Config.lenW)
  | .fastRead _ len => decide (len < 2 ^ Config.lenW)
  | .blockErase _ bop => bop != 0x52 && bop != 0xD8
  | .mfrDeviceId | .jedecId | .uniqueId | .pageProgram _ _ | .sectorErase _ | .blockErase32k _ | .blockErase64k _
  | .chipErase | .writeEnable | .writeDisable | .volatileSrWriteEnable | .readSr1 | .writeSr1 _ | .readSr2
  | .writeSr2 _ | .readSr3 | .writeSr3 _ | .globalLock | .globalUnlock | .powerDown | .releasePowerDown
  | .releasePowerDownId | .enableReset | .resetDevice | .reset | .isBusy | .isWriteEnabled | .blockProtectBits
  | .waitIdle => true

end Sys2Proof
end

