-- ==== Sys2Proof/Decode.lean ====
section
/-! DEFINITION. The encodings: the transaction formats of 30 R82, the command descriptor table of 30 R85 and R86, the
decoder of 30 R93, total on any bytes and rejecting by name, and after it the encoder from the same table. -/

namespace Sys2Proof

/-! ## Operand assembly and transactions (30 R81 to R84) -/

/-- The three address bytes in wire order, bits 23-16, 15-8, 7-0, each masked to 8 bits (20 R52; 30 R83). Stated for
any natural number: bits 24 and above never reach the wire (92 D12). -/
def addrBytes (a : Nat) : List Byte :=
  [BitVec.ofNat 8 (a >>> 16), BitVec.ofNat 8 (a >>> 8), BitVec.ofNat 8 a]

/-- The address whose bytes are `a2`, `a1`, `a0` in wire order (30 R93: `B[1] * 65536 + B[2] * 256 + B[3]`). -/
def addrOfBytes (a2 a1 a0 : Byte) : Addr :=
  BitVec.ofNat 24 (a2.toNat * 65536 + a1.toNat * 256 + a0.toNat)

/-- `DUMMY_OUT`, the byte sent for each byte of a read data phase (00 R7). -/
def dummyOut : Byte := 0x00

/-- The data direction of a transaction, `None`, `Read(n)` or `Write(bytes)` (40 R114). -/
inductive Phase where
  | none
  | read (n : Nat)
  | write (bytes : List Byte)
  deriving DecidableEq, Repr

/-- The arguments of `Txn` (40 R114): opcode, optional address, data direction. -/
structure Txn where
  opc : Byte
  addr : Option Addr
  data : Phase
  deriving DecidableEq, Repr

/-- The out-bytes of the data phase: `n` dummy bytes, or the buffer in order (30 R84; 40 R117). -/
def phaseBytes : Phase → List Byte
  | .none => []
  | .read n => List.replicate n dummyOut
  | .write bytes => bytes

/-- The out-bytes before the data phase: the opcode, then the address bytes if there is an address (40 R115, R116). -/
def headerBytes (t : Txn) : List Byte :=
  t.opc :: (match t.addr with
    | some a => addrBytes a.toNat
    | none => [])

/-- All the bytes the block sends between CS- and CS+, in wire order (30 R81, R82). -/
def outBytes (t : Txn) : List Byte := headerBytes t ++ phaseBytes t.data

/-- Whether the reply to the `k`-th byte of the transaction is collected: exactly in a read data phase (40 R115 to
R117). -/
def collects (t : Txn) (k : Nat) : Bool :=
  match t.data with
  | .read _ => decide ((headerBytes t).length ≤ k)
  | .none => false
  | .write _ => false

/-! ## The command descriptor table (30 R85, R86) -/

/-- The data-phase column of the descriptor table: no data, a fixed read count, the request's `len`, one byte `wval`, or
the request's `wdata` (30 R85, R86). -/
inductive DataLen where
  | none
  | read (n : Nat)
  | readLen
  | writeByte
  | writeAll
  deriving DecidableEq, Repr

/-- A command descriptor: opcode byte, whether an address phase follows, data-phase length (30 R85). -/
structure Command where
  opcode : Byte
  addressed : Bool
  data : DataLen
  deriving DecidableEq, Repr

/-- `MFID_LEN` (00 R7). -/
def mfidLen : Nat := 5
/-- `JEDEC_LEN` (00 R7). -/
def jedecLen : Nat := 3
/-- `UID_LEN` (00 R7). -/
def uidLen : Nat := 5
/-- `RPD_ID_LEN` (00 R7). -/
def rpdIdLen : Nat := 4
/-- `SR_LEN` (00 R7). -/
def srLen : Nat := 1

def cmdMfrDeviceId : Command := ⟨0x90, false, .read mfidLen⟩
def cmdJedecId : Command := ⟨0x9F, false, .read jedecLen⟩
def cmdUniqueId : Command := ⟨0x48, false, .read uidLen⟩
def cmdReadData : Command := ⟨0x03, true, .readLen⟩
def cmdFastRead : Command := ⟨0x0B, true, .readLen⟩
def cmdPageProgram : Command := ⟨0x02, true, .writeAll⟩
def cmdSectorErase : Command := ⟨0x20, true, .none⟩
def cmdBlockErase32k : Command := ⟨0x52, true, .none⟩
def cmdBlockErase64k : Command := ⟨0xD8, true, .none⟩
def cmdChipErase : Command := ⟨0x60, false, .none⟩
def cmdWriteEnable : Command := ⟨0x06, false, .none⟩
def cmdWriteDisable : Command := ⟨0x04, false, .none⟩
def cmdVolatileSrWriteEnable : Command := ⟨0x50, false, .none⟩
def cmdReadSr1 : Command := ⟨0x05, false, .read srLen⟩
def cmdWriteSr1 : Command := ⟨0x01, false, .writeByte⟩
def cmdReadSr2 : Command := ⟨0x35, false, .read srLen⟩
def cmdWriteSr2 : Command := ⟨0x31, false, .writeByte⟩
def cmdReadSr3 : Command := ⟨0x15, false, .read srLen⟩
def cmdWriteSr3 : Command := ⟨0x11, false, .writeByte⟩
def cmdGlobalLock : Command := ⟨0x7E, false, .none⟩
def cmdGlobalUnlock : Command := ⟨0x98, false, .none⟩
def cmdPowerDown : Command := ⟨0xB9, false, .none⟩
def cmdReleasePowerDown : Command := ⟨0xAB, false, .none⟩
def cmdReleasePowerDownId : Command := ⟨0xAB, false, .read rpdIdLen⟩
def cmdEnableReset : Command := ⟨0x66, false, .none⟩
def cmdResetDevice : Command := ⟨0x99, false, .none⟩

/-- The command BLOCK_ERASE sends: its opcode is the request's `bop`, the format is OA (30 R89; 44 R172). -/
def cmdBlockErase (bop : Byte) : Command := ⟨bop, true, .none⟩

/-- The complete set of commands the block can emit, in the order of 30 R86: 26 rows over 25 opcode bytes. -/
def commandTable : List Command :=
  [cmdMfrDeviceId, cmdJedecId, cmdUniqueId, cmdReadData, cmdFastRead, cmdPageProgram, cmdSectorErase,
   cmdBlockErase32k, cmdBlockErase64k, cmdChipErase, cmdWriteEnable, cmdWriteDisable, cmdVolatileSrWriteEnable]
  ++ [cmdReadSr1, cmdWriteSr1, cmdReadSr2, cmdWriteSr2, cmdReadSr3, cmdWriteSr3, cmdGlobalLock, cmdGlobalUnlock,
   cmdPowerDown, cmdReleasePowerDown, cmdReleasePowerDownId, cmdEnableReset, cmdResetDevice]

/-- Whether a byte is one of the 25 opcode bytes of 30 R86 (30 R88). -/
def isListedOpcode (b : Byte) : Bool := commandTable.any fun c => c.opcode == b

/-- The transaction a descriptor stands for, given the operands of the request (30 R86, column "data phase"). An operand
the descriptor does not read affects nothing (10 R23). -/
def commandTxn (c : Command) (addr : Addr) (len : Nat) (wdata : List Byte) : Txn where
  opc := c.opcode
  addr := if c.addressed then some addr else none
  data := match c.data with
    | .none => .none
    | .read n => .read n
    | .readLen => .read len
    | .writeByte => .write wdata
    | .writeAll => .write wdata

/-- The transaction of a command that takes no operand (formats O and OR of 30 R82). -/
def plainTxn (c : Command) : Txn := commandTxn c 0 0 []

/-- The shortest transaction of a descriptor, in bytes (30 R82, R87). -/
def shortestLength (c : Command) : Nat :=
  1 + (if c.addressed then 3 else 0) + (match c.data with
    | .none => 0
    | .read n => n
    | .readLen => 0
    | .writeByte => 1
    | .writeAll => 0)

/-! ## Decoding (30 R93) -/

/-- Why a sequence of bytes is no transaction the block can send. -/
inductive DecodeError where
  /-- No byte between CS- and CS+. -/
  | emptyTransaction
  /-- An addressed command with fewer than three bytes after the opcode. -/
  | addressTruncated
  /-- A data phase whose length the row does not have. -/
  | wrongDataLength
  /-- A read phase with an out-byte that is not 0x00. -/
  | readPhaseNotDummy
  deriving DecidableEq, Repr

/-- The operands read from the bytes after the opcode. -/
structure Operands where
  addr : Addr
  len : Nat
  wdata : List Byte
  deriving DecidableEq, Repr

/-- Read the data phase of a transaction (30 R93): a read phase is all 0x00, its operand is the count. -/
def decodeData (d : DataLen) (addr : Addr) (bytes : List Byte) : Except DecodeError Operands :=
  match d with
  | .none => if bytes.length = 0 then .ok ⟨addr, 0, []⟩ else .error .wrongDataLength
  | .read n =>
    if bytes.length = n then
      if bytes.all (· == dummyOut) then .ok ⟨addr, 0, []⟩ else .error .readPhaseNotDummy
    else .error .wrongDataLength
  | .readLen => if bytes.all (· == dummyOut) then .ok ⟨addr, bytes.length, []⟩ else .error .readPhaseNotDummy
  | .writeByte => if bytes.length = 1 then .ok ⟨addr, 0, bytes⟩ else .error .wrongDataLength
  | .writeAll => .ok ⟨addr, 0, bytes⟩

/-- Read the bytes after the opcode as a row's address and data (30 R81, R93). -/
def decodeOperands (c : Command) (bytes : List Byte) : Except DecodeError Operands :=
  if c.addressed then
    match bytes with
    | a2 :: a1 :: a0 :: rest => decodeData c.data (addrOfBytes a2 a1 a0) rest
    | [] | [_] | [_, _] => .error .addressTruncated
  else decodeData c.data 0 bytes

/-- Build an instruction from the operands, if they were read. -/
def decodeAs (c : Command) (bytes : List Byte) (build : Operands → Instr) : Except DecodeError Instr :=
  match decodeOperands c bytes with
  | .ok o => .ok (build o)
  | .error e => .error e

/-- The one data byte of a status-register write. -/
def wvalOf (o : Operands) : Byte := o.wdata.headD 0

/-- Decode the bytes the block sent between CS- and CS+ back to a command (30 R93). The first byte selects the row; 0xAB
is told apart by length (30 R87); a first byte outside the 25 opcodes can only come from BLOCK_ERASE (30 R89). -/
def decode : List Byte → Except DecodeError Instr
  | [] => .error .emptyTransaction
  | op :: rest =>
    if op = cmdMfrDeviceId.opcode then decodeAs cmdMfrDeviceId rest fun _ => .mfrDeviceId
    else if op = cmdJedecId.opcode then decodeAs cmdJedecId rest fun _ => .jedecId
    else if op = cmdUniqueId.opcode then decodeAs cmdUniqueId rest fun _ => .uniqueId
    else if op = cmdReadData.opcode then decodeAs cmdReadData rest fun o => .readData o.addr o.len
    else if op = cmdFastRead.opcode then decodeAs cmdFastRead rest fun o => .fastRead o.addr o.len
    else if op = cmdPageProgram.opcode then decodeAs cmdPageProgram rest fun o => .pageProgram o.addr o.wdata
    else if op = cmdSectorErase.opcode then decodeAs cmdSectorErase rest fun o => .sectorErase o.addr
    else if op = cmdBlockErase32k.opcode then decodeAs cmdBlockErase32k rest fun o => .blockErase32k o.addr
    else if op = cmdBlockErase64k.opcode then decodeAs cmdBlockErase64k rest fun o => .blockErase64k o.addr
    else if op = cmdChipErase.opcode then decodeAs cmdChipErase rest fun _ => .chipErase
    else if op = cmdWriteEnable.opcode then decodeAs cmdWriteEnable rest fun _ => .writeEnable
    else if op = cmdWriteDisable.opcode then decodeAs cmdWriteDisable rest fun _ => .writeDisable
    else if op = cmdVolatileSrWriteEnable.opcode then
      decodeAs cmdVolatileSrWriteEnable rest fun _ => .volatileSrWriteEnable
    else if op = cmdReadSr1.opcode then decodeAs cmdReadSr1 rest fun _ => .readSr1
    else if op = cmdWriteSr1.opcode then decodeAs cmdWriteSr1 rest fun o => .writeSr1 (wvalOf o)
    else if op = cmdReadSr2.opcode then decodeAs cmdReadSr2 rest fun _ => .readSr2
    else if op = cmdWriteSr2.opcode then decodeAs cmdWriteSr2 rest fun o => .writeSr2 (wvalOf o)
    else if op = cmdReadSr3.opcode then decodeAs cmdReadSr3 rest fun _ => .readSr3
    else if op = cmdWriteSr3.opcode then decodeAs cmdWriteSr3 rest fun o => .writeSr3 (wvalOf o)
    else if op = cmdGlobalLock.opcode then decodeAs cmdGlobalLock rest fun _ => .globalLock
    else if op = cmdGlobalUnlock.opcode then decodeAs cmdGlobalUnlock rest fun _ => .globalUnlock
    else if op = cmdPowerDown.opcode then decodeAs cmdPowerDown rest fun _ => .powerDown
    else if op = cmdReleasePowerDown.opcode then
      if rest.length = 0 then decodeAs cmdReleasePowerDown rest fun _ => .releasePowerDown
      else decodeAs cmdReleasePowerDownId rest fun _ => .releasePowerDownId
    else if op = cmdEnableReset.opcode then decodeAs cmdEnableReset rest fun _ => .enableReset
    else if op = cmdResetDevice.opcode then decodeAs cmdResetDevice rest fun _ => .resetDevice
    else decodeAs (cmdBlockErase op) rest fun o => .blockErase o.addr op

/-! ## Encoding (30 R81, R86) -/

/-- The transaction of an instruction's own command, as its row of 30 R86 frames it. The operations that are not one
command have none: RESET is two, and the queries and WAIT_IDLE use READ_SR1's (30 R80, R92). -/
def ownTxn : Instr → Option Txn
  | .mfrDeviceId => some (plainTxn cmdMfrDeviceId)
  | .jedecId => some (plainTxn cmdJedecId)
  | .uniqueId => some (plainTxn cmdUniqueId)
  | .readData addr len => some (commandTxn cmdReadData addr len [])
  | .fastRead addr len => some (commandTxn cmdFastRead addr len [])
  | .pageProgram addr wdata => some (commandTxn cmdPageProgram addr 0 wdata)
  | .sectorErase addr => some (commandTxn cmdSectorErase addr 0 [])
  | .blockErase32k addr => some (commandTxn cmdBlockErase32k addr 0 [])
  | .blockErase64k addr => some (commandTxn cmdBlockErase64k addr 0 [])
  | .chipErase => some (plainTxn cmdChipErase)
  | .writeEnable => some (plainTxn cmdWriteEnable)
  | .writeDisable => some (plainTxn cmdWriteDisable)
  | .volatileSrWriteEnable => some (plainTxn cmdVolatileSrWriteEnable)
  | .readSr1 => some (plainTxn cmdReadSr1)
  | .writeSr1 wval => some (commandTxn cmdWriteSr1 0 0 [wval])
  | .readSr2 => some (plainTxn cmdReadSr2)
  | .writeSr2 wval => some (commandTxn cmdWriteSr2 0 0 [wval])
  | .readSr3 => some (plainTxn cmdReadSr3)
  | .writeSr3 wval => some (commandTxn cmdWriteSr3 0 0 [wval])
  | .globalLock => some (plainTxn cmdGlobalLock)
  | .globalUnlock => some (plainTxn cmdGlobalUnlock)
  | .powerDown => some (plainTxn cmdPowerDown)
  | .releasePowerDown => some (plainTxn cmdReleasePowerDown)
  | .releasePowerDownId => some (plainTxn cmdReleasePowerDownId)
  | .enableReset => some (plainTxn cmdEnableReset)
  | .resetDevice => some (plainTxn cmdResetDevice)
  | .blockErase addr bop => some (commandTxn (cmdBlockErase bop) addr 0 [])
  | .reset => none
  | .isBusy => none
  | .isWriteEnabled => none
  | .blockProtectBits => none
  | .waitIdle => none

/-- The out-bytes of an instruction's own command in wire order (30 R81). -/
def encode (i : Instr) : Option (List Byte) := (ownTxn i).map outBytes

/-! ## The opcode table's words (log entry 8) -/

/-- The bytes of a word numbered as the opcode table numbers it: bit 0 is the least significant bit of byte 0 of the
transaction, a later byte's bits count on from there. -/
def wordBytes : Nat → Nat → List Byte
  | 0, _ => []
  | k + 1, w => BitVec.ofNat 8 w :: wordBytes k (w >>> 8)

/-- The bytes that a word leaves out, up to the shortest transaction of its opcode, as zeros. -/
def padTransaction : List Byte → List Byte
  | [] => []
  | op :: rest =>
    let least := match commandTable.find? (fun c => c.opcode == op) with
      | some c => shortestLength c
      | none => shortestLength (cmdBlockErase op)
    (op :: rest) ++ List.replicate (least - (op :: rest).length) 0

/-- The instruction the decoder reads from a transaction whose first `nbits` bits are `w`, numbered as
spec/opcode_table.json numbers them, with zeros above. -/
def decodeTableWord (nbits w : Nat) : Option Instr :=
  match decode (padTransaction (wordBytes ((nbits + 7) / 8) w)) with
  | .ok i => some i
  | .error _ => none

end Sys2Proof
end

