-- ==== Sys2Proof/Machine/State.lean ====
section
/-! DEFINITION. The state of the model as plain data: the block's tuple of 10 R20, the four channels and the reset input
of 00 R9 and 70 R240, the event trace of 00 R10, and the environment of 00 R8 with the chip as far as the source
describes it (10 R31 to R33; 20 R62 to R75). -/

namespace Sys2Proof.Machine

/-! ## Requests (00 R9; 10 R23; 30 R90) -/

/-- The 30 members of `Op`, in the order of 30 R90. Their coding on the channel (`OP_ENC`) is open and unobservable, and
no member exists for an unknown operation (30 R88; 92 D2). -/
inductive Op where
  | mfrDeviceId
  | jedecId
  | uniqueId
  | readData
  | fastRead
  | pageProgram
  | sectorErase
  | blockErase
  | chipErase
  | writeEnable
  | writeDisable
  | volatileSrWriteEnable
  | readSr1
  | readSr2
  | readSr3
  | writeSr1
  | writeSr2
  | writeSr3
  | globalLock
  | globalUnlock
  | powerDown
  | releasePowerDown
  | releasePowerDownId
  | enableReset
  | resetDevice
  | reset
  | isBusy
  | isWriteEnabled
  | blockProtectBits
  | waitIdle
  deriving DecidableEq, Repr

/-- What the channel REQ carries, and what the block latches (00 R9; 10 R23). -/
structure Request where
  op : Op
  addr : Addr
  len : Len
  wdata : List Byte
  bop : Byte
  wval : Byte
  deriving DecidableEq, Repr

/-! ## Events (00 R10, R11) -/

/-- One event of the trace: the primitives on TRANSPORT and DELAY, the acceptances on REQ and the deliveries on RSP. -/
inductive Event where
  /-- `CS-`, chip-select driven low. -/
  | csLow
  /-- `CS+`, chip-select driven high. -/
  | csHigh
  /-- `X(out, in)`, one full-duplex exchange. -/
  | xfer (out inp : Byte)
  /-- `DLY(u)`, a delay of `u` time units. -/
  | dly (u : Nat)
  /-- Acceptance of a request on REQ. -/
  | req (r : Request)
  /-- Delivery of a response on RSP. -/
  | rsp (rdata : List Byte)
  deriving DecidableEq, Repr

/-! ## The environment (00 R8; 20 section 7) -/

/-- What the source lets one say of a piece of chip state: any value (the treatment of that name in 93), or this one. -/
inductive Known (α : Type) where
  | any
  | is (v : α)
  deriving DecidableEq, Repr

/-- The chip as far as the source describes it (10 R31 to R33; 20 R63 to R74). It is no part of the block, which holds no
copy of any of it (10 R27). -/
structure Chip where
  /-- The bytes received since CS-. -/
  rx : List Byte
  /-- Write-enable latch, SR1 bit 1. -/
  wel : Known Bool
  /-- Busy, SR1 bit 0. -/
  busy : Known Bool
  /-- Block-protect bits, SR1 bits 4:2. -/
  bp : Known (BitVec 3)
  /-- Enable Reset has armed the reset. -/
  armed : Known Bool
  /-- 0x50 has permitted the next status-register write to be volatile. -/
  volatileArmed : Known Bool
  /-- Low-power state. -/
  asleep : Known Bool
  /-- Array bytes with one known value, addresses strictly rising. An address not listed holds any value. -/
  flash : List Host.Cell
  /-- Regions known to be erased and not programmed since, each from a first address to one past its last. -/
  blank : List (Nat × Nat)
  /-- The manufacturer byte and the two device-ID bytes JEDEC_ID replies with. -/
  jedec : Known (Byte × Byte × Byte)
  /-- `CHIP_SIZE` in bytes. -/
  size : Nat
  deriving DecidableEq, Repr

/-- The environment: the answers it will give, how many free answers have been drawn after them, whether the attached
chip keeps the environment contract of 20 R62 to R75, and that chip. Where `contract` is false every answer is the next
one of the list or a free value, whatever the chip (20 R62). -/
structure Env where
  replies : List Byte
  drawn : Nat
  contract : Bool
  chip : Chip
  deriving DecidableEq, Repr

/-! ## The block (10 R20 to R26) -/

/-- `seq`: no operation in progress, or one being performed (10 R22). -/
inductive Seq where
  | idle
  | run
  deriving DecidableEq, Repr

/-- Why a step ends the run with a fault. The block raises no exception and has no error output (60 R220). -/
inductive Fault where
  /-- The error kind the source reserves for catastrophic bus failure and never raises (60 R223; 92 D18). Raised by
  nobody: every exchange completes (20 R75). Safe. -/
  | transportFault
  deriving DecidableEq, Repr

/-- Why a step refuses. -/
inductive Refusal where
  /-- An instruction without a meaning, by the table's mnemonic. Raised by an arm of `exec` that has none; there is no
  such arm. Safe. -/
  | notModelled (mnemonic : String)
  /-- A request for an operation the source keeps internal, under `PUBLIC_ONLY` = true: such a request cannot be formed
  (00 R7; 60 R229). Raised by the acceptance of a request when the parameter is true; the parameter is false, so by
  nobody. Safe. -/
  | internalOperation (op : Op)
  deriving DecidableEq, Repr

end Sys2Proof.Machine

namespace Sys2Proof.Machine

/-- The state: the seven components of 10 R20 (`csN`, `seq`, `req`, `upc`, `cnt`, `rbuf`, `st`), and the model's own
record of the interfaces (`rst`, `reqIn`, `trace`, `env`). -/
structure State where
  /-- `cs_n`, the chip-select line: `false` is 0, asserted; `true` is 1, released (10 R21). -/
  csN : Bool
  /-- `seq` (10 R22). -/
  seq : Seq
  /-- `req`, the request latched at acceptance (10 R23). -/
  req : Request
  /-- `upc`, the index of the current element of the expansion (10 R26). -/
  upc : Nat
  /-- `cnt`, the index of the next byte inside the current transaction (10 R26). -/
  cnt : Nat
  /-- `rbuf`, the replies collected by the current transaction (10 R24). After the response they stand here, unread, until
  the next CS- (DESIGN CHOICE, log entry 31). -/
  rbuf : List Byte
  /-- `st`, the status snapshot (10 R25). -/
  st : Byte
  /-- The levels of the input `rst` at the coming steps (70 R240; log entry 3). -/
  rst : List Bool
  /-- The requests the host will present on REQ, in order (00 R14; log entry 4). -/
  reqIn : List Request
  /-- The event trace so far, oldest first (00 R10; log entry 17). -/
  trace : List Event
  /-- The environment (00 R8). -/
  env : Env
  deriving DecidableEq, Repr

/-- The output `ready`, 1 exactly when `seq` is IDLE (00 R9; 10 R22). -/
def State.ready (s : State) : Bool := s.seq == .idle

/-- The value the model names for `req` after reset, which 10 R34 leaves unspecified (DESIGN CHOICE, log entry 5). -/
def Request.afterReset : Request := ⟨.mfrDeviceId, 0, 0, [], 0, 0⟩

/-- The value the model names for `st` after reset, which 10 R34 leaves unspecified (DESIGN CHOICE, log entry 5). -/
def stAfterReset : Byte := 0

/-- The chip at the start: every piece of it any value (93 U12; log entries 18 and 26). -/
def Chip.atStart : Chip :=
  ⟨[], .any, .any, .any, .any, .any, .any, [], [], .any, Config.chipSize⟩

/-- The environment at the start: no answer listed, no contract (log entries 2 and 18). -/
def Env.atStart : Env := ⟨[], 0, false, Chip.atStart⟩

/-- The machine right after reset (10 R34; 70 R240, R241). -/
def State.reset : State where
  csN := true
  seq := .idle
  req := Request.afterReset
  upc := 0
  cnt := 0
  rbuf := []
  st := stAfterReset
  rst := []
  reqIn := []
  trace := []
  env := Env.atStart

end Sys2Proof.Machine
end

