-- ==== Sys2Proof/Machine/Chip.lean ====
section
/-! DEFINITION. The environment: where the answer to an exchange comes from, and the environment contract of 20 R62 to
R75, that is what the source says of the chip. The block checks none of it and behaves the same whether or not it holds
(20 R62), so it constrains the answers only where `Env.contract` is true; where the source is silent the answer, or the
chip's next state, is any value (93 U2 to U12). -/

namespace Sys2Proof.Machine

/-! ## The array: known bytes, in one canonical form -/

/-- The canonical form of the array's known bytes: addresses strictly rising. An unlisted address has no known value, so
no entry equals what an unlisted address reads as (log entry 26). -/
def Memory.wf : List Host.Cell → Bool
  | [] => true
  | [_] => true
  | (a, _) :: (b, w) :: rest => decide (a < b) && Memory.wf ((b, w) :: rest)

/-- What is known of the byte at an address. -/
def cellAt (mem : List Host.Cell) (a : Nat) : Known Byte :=
  match mem.find? (fun c => c.1 == a) with
  | some c => .is c.2
  | none => .any

/-- From here the byte at `a` is known to be `b`. -/
def cellSet (a : Nat) (b : Byte) : List Host.Cell → List Host.Cell
  | [] => [(a, b)]
  | (x, v) :: rest =>
    if a < x then (a, b) :: (x, v) :: rest
    else if a = x then (a, b) :: rest
    else (x, v) :: cellSet a b rest

/-- From here the bytes from `lo` to before `hi` hold any value. -/
def cellForget (lo hi : Nat) (mem : List Host.Cell) : List Host.Cell :=
  mem.filter fun c => !(decide (lo ≤ c.1) && decide (c.1 < hi))

/-- Whether an address lies in a region, from its first address to one past its last. -/
def inRegion (a : Nat) (r : Nat × Nat) : Bool := decide (r.1 ≤ a) && decide (a < r.2)

/-- Whether the byte at `a` is known to be erased and not programmed since. -/
def isBlank (c : Chip) (a : Nat) : Bool := c.blank.any (inRegion a)

/-- A region without one address: what is left below it and above it. -/
def splitRegion (a : Nat) (r : Nat × Nat) : List (Nat × Nat) :=
  if inRegion a r then [(r.1, a), (a + 1, r.2)].filter fun q => decide (q.1 < q.2) else [r]

/-! ## Dropping to "any value" -/

/-- The chip's next state is any value (93 U2, U4 to U8): nothing is known of it any more but its identification bytes and
its size, which no command is taken to change (DESIGN CHOICE, log entry 29), and whether it sleeps, which only POWER_DOWN
and the releases change (60 R234; log entry 35). -/
def chipForget (c : Chip) : Chip :=
  { c with wel := .any, busy := .any, bp := .any, armed := .any, volatileArmed := .any, flash := [], blank := [] }

/-- The known value, or else the one the environment picks. -/
def pick {α : Type} (k : Known α) (drawn : α) : α :=
  match k with
  | .is v => v
  | .any => drawn

/-- Awake and idle, both known. -/
def chipReady (c : Chip) : Bool := c.asleep == .is false && c.busy == .is false

/-! ## Program and erase (20 R66, R68, R69) -/

/-- One byte programmed at `a`: the byte itself where the location is known to be erased, any value elsewhere (20 R68; 93
U9). -/
def programByte (a : Nat) (w : Byte) (c : Chip) : Chip :=
  if isBlank c a then
    { c with flash := cellSet a w c.flash, blank := c.blank.flatMap (splitRegion a) }
  else { c with flash := cellForget a (a + 1) c.flash }

/-- The first address of the 256-byte page that holds `a` (20 R54, R68). -/
def pageBase (a : Nat) : Nat := a - a % 256

/-- Where byte `j` of a page program goes: page base + (addr + j) mod 256 (20 R68; 93 U9). -/
def programPlace (addr j : Nat) : Nat := pageBase addr + (addr + j) % 256

/-- The bytes of a page program from the `j`-th on (20 R68; 93 U9). -/
def programFrom (addr : Nat) : Nat → List Byte → Chip → Chip
  | _, [], c => c
  | j, w :: rest, c => programFrom addr (j + 1) rest (programByte (programPlace addr j) w c)

/-- A byte that may or may not have been programmed at `a` (93 U10): from here the location holds any value. -/
def forgetByte (a : Nat) (c : Chip) : Chip :=
  { c with flash := cellForget a (a + 1) c.flash, blank := c.blank.flatMap (splitRegion a) }

/-- The bytes of a page program that may or may not have been carried out, from the `j`-th on. -/
def forgetFrom (addr : Nat) : Nat → List Byte → Chip → Chip
  | _, [], c => c
  | j, _ :: rest, c => forgetFrom addr (j + 1) rest (forgetByte (programPlace addr j) c)

/-- A region is erased: its bytes lose their values, and the value of an erased byte is not in the source (20 R69; 91
N7). -/
def eraseRegion (lo hi : Nat) (c : Chip) : Chip :=
  { c with flash := cellForget lo hi c.flash
           blank := (lo, hi) :: c.blank.filter fun r => !(decide (lo ≤ r.1) && decide (r.2 ≤ hi)) }

/-- A region that may or may not have been erased (93 U10): its bytes lose their values, and what was blank is blank either
way. -/
def forgetRegion (lo hi : Nat) (c : Chip) : Chip := { c with flash := cellForget lo hi c.flash }

/-- A program or an erase that reaches past the chip: which array bytes it touches is any value (93 U4), and so is whether a
cycle starts. The rest of the chip stays. -/
def outOfRange (c : Chip) : Chip := { c with wel := .any, busy := .any, flash := [], blank := [] }

/-- What an erase of the aligned region of `g` bytes that holds `a` does (20 R69), by what it does to that region, if it
lies in the chip (93 U4). -/
def onAligned (g a : Nat) (region : Nat → Nat → Chip → Chip) (c : Chip) : Chip :=
  if a - a % g + g ≤ c.size then region (a - a % g) (a - a % g + g) c else outOfRange c

/-- `SECTOR_SIZE` (00 R7). -/
def sectorSize : Nat := 4096
/-- `BLOCK32_SIZE` (00 R7). -/
def block32Size : Nat := 32768
/-- `BLOCK64_SIZE` (00 R7). -/
def block64Size : Nat := 65536
/-- `PAGE_SIZE` (00 R7). -/
def pageSize : Nat := 256

/-- A program or an erase, by its effect and by what it leaves where it may or may not have been carried out. With the latch
set and no block-protect bit set it takes effect and starts a cycle (20 R65). With the latch clear it is a silent no-op (20
R66). With the latch set and a protect bit not known to be clear, whether the chip ignores it and whether the latch is then
cleared is any value (93 U10), and nothing else is; with the latch unknown it is one of the two. -/
def mutating (effect doubt : Chip → Chip) (c : Chip) : Chip :=
  match c.wel with
  | .is true =>
    if c.bp == .is 0 then effect { c with busy := .is true } else { doubt c with wel := .any, busy := .any }
  | .is false => c
  | .any => { doubt c with wel := .any, busy := .any }

/-- What Page Program does with its data, by what it does from the first byte on (20 R68). No data byte: whether a cycle
starts is any value (93 U9). A page that reaches past the chip: 93 U4. -/
def onPage (addr : Addr) (wdata : List Byte) (bytes : Nat → Nat → List Byte → Chip → Chip) (c : Chip) : Chip :=
  if wdata.isEmpty then { c with busy := .any, wel := .any }
  else if pageBase addr.toNat + pageSize ≤ c.size then bytes addr.toNat 0 wdata c
  else outOfRange c

/-- Page Program (20 R68). -/
def programPage (addr : Addr) (wdata : List Byte) (c : Chip) : Chip :=
  mutating (onPage addr wdata programFrom) (onPage addr wdata forgetFrom) c

/-- An erase of the aligned region of `g` bytes that holds the address (20 R69). -/
def eraseAligned (g : Nat) (addr : Addr) (c : Chip) : Chip :=
  mutating (onAligned g addr.toNat eraseRegion) (onAligned g addr.toNat forgetRegion) c

/-- Chip Erase (20 R69). -/
def eraseAll (c : Chip) : Chip := mutating (eraseRegion 0 c.size) (forgetRegion 0 c.size) c

/-- A status-register write (20 R70): a cycle starts, and what the register then reads is any value. With the latch clear it
is a silent no-op (20 R66), with the latch unknown it may be either. With the latch clear but 0x50 in force the source
does not say whether the write counts (93 U7). What 0x50, then 0x06, then a write does
is not in the source either (41 R137): a write with the latch set uses the volatile permission up, whether or not it was
in force, and whether that write is volatile is nowhere recorded (DESIGN CHOICE, log entry 32). -/
def statusWrite (effect : Chip → Chip) (c : Chip) : Chip :=
  if c.wel == .is true then { effect c with busy := .is true, volatileArmed := .is false }
  else if c.wel == .is false && c.volatileArmed == .is false then c
  else { effect c with wel := .any, busy := .any, volatileArmed := .any }

/-- Global Block Lock or Unlock (20 R71; 10 R32): sets or clears the protect bits. Whether the chip requires the latch and
whether it is busy afterwards is not in the source (91 N19), so without the latch the bits are any value. -/
def protect (bits : BitVec 3) (c : Chip) : Chip :=
  match c.wel with
  | .is true => { c with bp := .is bits, wel := .any, busy := .any }
  | .is false => { c with bp := .any, busy := .any }
  | .any => { c with bp := .any, busy := .any }

/-- Reset Device (20 R73): with the reset armed all volatile state is reset; without, the source gives "silent no-op or
chip-defined" (20 R66; 93 U11). -/
def deviceReset (c : Chip) : Chip :=
  match c.armed with
  | .is true => { c with wel := .is false, volatileArmed := .is false, armed := .is false, busy := .any, bp := .any }
  | .is false => chipForget c
  | .any => chipForget c

/-- What a command does at its CS+ to a chip that is awake and idle (20 R63 to R73), apart from disarming the reset. What
survives POWER_DOWN, and whether the chip is ready when a release responds, is not in the source (60 R234; 91 N12):
after POWER_DOWN nothing is known but that the chip sleeps, after a release nothing of its busy bit (DESIGN CHOICE, log
entries 29 and 30). What 0x06 or 0x04 does to the volatile permission of an earlier 0x50 is not in the source (41 R137;
93 U7): it stays in force until a status-register write or a reset of the chip (DESIGN CHOICE, log entry 32). -/
def commandEffect (i : Instr) (c : Chip) : Chip :=
  match i with
  | .writeEnable => { c with wel := .is true }
  | .writeDisable => { c with wel := .is false }
  | .volatileSrWriteEnable => { c with volatileArmed := .is true }
  | .pageProgram addr wdata => programPage addr wdata c
  | .sectorErase addr => eraseAligned sectorSize addr c
  | .blockErase32k addr => eraseAligned block32Size addr c
  | .blockErase64k addr => eraseAligned block64Size addr c
  | .chipErase => eraseAll c
  | .writeSr1 _ => statusWrite (fun d => { d with bp := .any }) c
  | .writeSr2 _ => statusWrite id c
  | .writeSr3 _ => statusWrite id c
  | .globalLock => protect 7 c
  | .globalUnlock => protect 0 c
  | .powerDown => { chipForget c with asleep := .is true }
  | .releasePowerDown | .releasePowerDownId => { c with busy := .any }
  | .enableReset => { c with armed := .is true }
  | .resetDevice => deviceReset c
  | .mfrDeviceId | .jedecId | .uniqueId | .readData _ _ | .fastRead _ _ | .readSr1 | .readSr2 | .readSr3 => c
  | .blockErase _ _ => chipForget c
  | .reset | .isBusy | .isWriteEnabled | .blockProtectBits | .waitIdle => c

/-- Whether a command only reads; the source names no side effect of these (20 R57). -/
def onlyReads : Instr → Bool
  | .mfrDeviceId | .jedecId | .uniqueId | .readData _ _ | .fastRead _ _ | .readSr1 | .readSr2 | .readSr3 => true
  | .pageProgram _ _ | .sectorErase _ | .blockErase32k _ | .blockErase64k _ | .chipErase | .writeEnable
  | .writeDisable | .volatileSrWriteEnable | .writeSr1 _ | .writeSr2 _ | .writeSr3 _ | .globalLock | .globalUnlock
  | .powerDown | .releasePowerDown | .releasePowerDownId | .enableReset | .resetDevice | .blockErase _ _ | .reset
  | .isBusy | .isWriteEnabled | .blockProtectBits | .waitIdle => false

/-- Whether a command is one of the two forms that wake the chip (20 R72; 46 R203, R204). -/
def wakes : Instr → Bool
  | .releasePowerDown | .releasePowerDownId => true
  | .mfrDeviceId | .jedecId | .uniqueId | .readData _ _ | .fastRead _ _ | .readSr1 | .readSr2 | .readSr3
  | .pageProgram _ _ | .sectorErase _ | .blockErase32k _ | .blockErase64k _ | .chipErase | .writeEnable
  | .writeDisable | .volatileSrWriteEnable | .writeSr1 _ | .writeSr2 _ | .writeSr3 _ | .globalLock | .globalUnlock
  | .powerDown | .enableReset | .resetDevice | .blockErase _ _ | .reset | .isBusy | .isWriteEnabled
  | .blockProtectBits | .waitIdle => false

/-- Every command but Reset Device and Enable Reset disarms the reset, which must come immediately before (20 R73; 93
U11). What disarms it other than another command is any value in 93 U11: here nothing does, so the arming lasts through
the delay of RESET, through any wait in IDLE between two requests, and through a reset of the block that finds
chip-select high (DESIGN CHOICE, log entry 33). -/
def disarm (i : Instr) (c : Chip) : Chip :=
  if i = .enableReset ∨ i = .resetDevice then c else { c with armed := .is false }

/-- A command reaches the chip at its CS+. Awake and idle: its effect. Otherwise a read still changes nothing (20 R57), a
wake-up wakes (20 R72), and for any other command the next state is any value (93 U2, U5), but that only POWER_DOWN can
put an awake chip to sleep (60 R234; log entry 35). Nothing but that it is awake is known of a chip that has just been
woken, neither what survived (60 R234) nor that it is ready (91 N12): only a status read that finds it idle shows that
(DESIGN CHOICE, log entries 29 and 30). -/
def receive (i : Instr) (c : Chip) : Chip :=
  if chipReady c then commandEffect i (disarm i c)
  else if onlyReads i then disarm i c
  else if wakes i then { chipForget c with asleep := .is false }
  else if i = .powerDown ∧ c.asleep ≠ .is true then { chipForget c with asleep := .any }
  else chipForget c

/-! ## The bus as the chip sees it -/

/-- CS-: a transaction begins. -/
def chipSelect (c : Chip) : Chip := { c with rx := [] }

/-- The bytes of a transaction that are no command the source describes (93 U6), or a command ended early (93 U8): any value.
Whether the chip sleeps stays known unless the bytes begin as those of POWER_DOWN or of a release (60 R234; log entry
35). -/
def garbled (c : Chip) : Chip :=
  let asleep := match c.rx with
    | [] => c.asleep
    | op :: _ =>
      if op = cmdPowerDown.opcode ∧ c.asleep ≠ .is true then .any
      else if op = cmdReleasePowerDown.opcode ∧ c.asleep ≠ .is false then .any
      else c.asleep
  { chipForget c with asleep := asleep, rx := [] }

/-- CS+: the transaction's bytes are a command (30 R93), or nothing the source describes (93 U6). -/
def chipDeselect (c : Chip) : Chip :=
  match decode c.rx with
  | .ok i => { receive i c with rx := [] }
  | .error _ => garbled c

/-- A block reset ended a transaction early: any value (70 R240; 93 U8). Whether a transaction whose last byte had already
been exchanged then counts as cut short or as the complete command is not in the source: it too leaves any value (DESIGN
CHOICE, log entry 34). -/
def chipCut (c : Chip) : Chip := garbled c

/-- A byte with the given bits 7:5, 4:2, 1 and 0. -/
def statusByte (upper bp : BitVec 3) (wel busy : Bool) : Byte := upper ++ bp ++ BitVec.ofBool wel ++ BitVec.ofBool busy

/-- The reply to the data byte of a READ_SR1. Asleep or not known to be awake: any value (93 U5). Awake: bit 0 is the busy
bit, and a cycle in progress may have completed at any time (20 R65), which the environment picks; a completed cycle
has cleared the latch (20 R64); bit 1 is the latch, bits 4:2 the protect bits, bits 7:5 any value (10 R32). -/
def statusReply (drawn : Byte) (c : Chip) : Byte × Chip :=
  if c.asleep == .is false then
    let busy := c.busy != .is false && drawn.getLsbD 0
    let welBefore : Known Bool :=
      if busy || c.busy == .is false then c.wel
      else if c.busy == .is true then .is false
      else if c.wel == .is false then .is false else .any
    let wel := pick welBefore (drawn.getLsbD 1)
    (statusByte (drawn.extractLsb' 5 3) (pick c.bp (drawn.extractLsb' 2 3)) wel busy,
      { c with busy := .is busy, wel := .is wel })
  else (drawn, c)

/-- The array address whose byte the next exchange of a read transaction returns: `addr + i` (20 R67). -/
def readAddress (a2 a1 a0 : Byte) (served : List Byte) : Nat := (addrOfBytes a2 a1 a0).toNat + served.length

/-- The reply to one exchange, and the chip after it: what the contract fixes, or else the byte the environment picks.
`c.rx` holds the bytes of this transaction before this one. What a read that runs past the end of the chip returns is not
in the source (20 R58, R67; 93 U4): its replies at addresses outside the chip are any value, and those before the end are
the array bytes, as in a read that stays inside (DESIGN CHOICE, log entry 36). -/
def chipReply (drawn : Byte) (c : Chip) : Byte × Chip :=
  match c.rx with
  | [] => (drawn, c)
  | op :: rest =>
    if op = cmdReadSr1.opcode ∧ rest = [] then statusReply drawn c
    else if chipReady c then
      if op = cmdReadData.opcode ∨ op = cmdFastRead.opcode then
        match rest with
        | a2 :: a1 :: a0 :: served =>
          if readAddress a2 a1 a0 served < c.size then (pick (cellAt c.flash (readAddress a2 a1 a0 served)) drawn, c)
          else (drawn, c)
        | [] | [_] | [_, _] => (drawn, c)
      else if op = cmdJedecId.opcode then
        match c.jedec, rest.length with
        | .is (m, _, _), 0 => (m, c)
        | .is (_, d, _), 1 => (d, c)
        | .is (_, _, e), 2 => (e, c)
        | .is _, _ + 3 => (drawn, c)
        | .any, _ => (drawn, c)
      else (drawn, c)
    else (drawn, c)

/-! ## The environment -/

/-- The byte the environment picks next: the next of its listed answers, or a free value (00 R8, R11; log entry 2). -/
def envDraw (e : Env) : Byte × Env :=
  match e.replies with
  | b :: rest => (b, { e with replies := rest })
  | [] => (Config.freeReply e.drawn, { e with drawn := e.drawn + 1 })

/-- The environment's side of `Xfer(out)`: the reply, and the environment after it. -/
def envExchange (out : Byte) (e : Env) : Byte × Env :=
  let d := envDraw e
  if e.contract then
    let r := chipReply d.1 e.chip
    (r.1, { d.2 with chip := { r.2 with rx := e.chip.rx ++ [out] } })
  else d

/-- The environment's side of `CsAssert()`. -/
def envSelect (e : Env) : Env := if e.contract then { e with chip := chipSelect e.chip } else e

/-- The environment's side of `CsRelease()`. -/
def envDeselect (e : Env) : Env := if e.contract then { e with chip := chipDeselect e.chip } else e

/-- The environment's side of a chip-select released by a block reset inside a transaction. -/
def envCut (e : Env) : Env := if e.contract then { e with chip := chipCut e.chip } else e

end Sys2Proof.Machine
end

