-- ==== Sys2Proof/Machine/Flags.lean ====
section
/-! DEFINITION. The derived predicates of 10 R28: pure functions of a status-register-1 byte read in the same operation.
The block stores no flag (10 R27). -/

namespace Sys2Proof.Machine

/-- `busy(s) = s[0]` (10 R28; 40 R122). -/
def busyFlag (s : Byte) : Bool := s.getLsbD 0

/-- `wel(s) = s[1]` (10 R28; 40 R122). -/
def welFlag (s : Byte) : Bool := s.getLsbD 1

/-- `bp(s) = s[4:2]` (10 R28; 40 R122). -/
def bpField (s : Byte) : BitVec 3 := s.extractLsb' 2 3

/-- A boolean answer as one byte, 0x01 or 0x00 (41 R132, R133; 92 D28). -/
def boolByte (b : Bool) : Byte := if b then 0x01 else 0x00

/-- The block-protect bits right-aligned in one byte, `(s >> 2) & 0x07` (41 R134; 92 D8). -/
def bpByte (s : Byte) : Byte := (s >>> 2) &&& 0x07

end Sys2Proof.Machine
end

