-- ==== Sys2Proof/Machine/Operands.lean ====
section
/-! DEFINITION. What an operation is made of: the elements of an expansion and the form of its response (30 R90), the
parameters that shape them (00 R7), and the operands a request carries (10 R23; 30 R90, column "reads"). -/

namespace Sys2Proof.Machine

/-- An element of an expansion (30 R90; 10 R26): `T(..)`, `T(READ_SR1)` by way of `ReadStatus1()`, `WI` or `D`. -/
inductive Elem where
  /-- One transaction (40 R114). -/
  | txn (t : Txn)
  /-- `ReadStatus1()`: the READ_SR1 transaction, whose reply goes to `st` (41 R131). -/
  | readStatus1
  /-- `WaitIdle()` (41 R138). -/
  | waitIdle
  /-- `Delay(u)` (40 R120). -/
  | delay (u : Nat)
  deriving DecidableEq, Repr

/-- What the response of an operation carries (30 R90, column "response"). -/
inductive Answer where
  /-- The empty sequence. -/
  | empty
  /-- The collected replies, as they came (20 R53). -/
  | replies
  /-- The status byte whole (45 R185). -/
  | status
  /-- One byte, the busy bit (41 R132). -/
  | busyBit
  /-- One byte, the latch bit (41 R133). -/
  | latchBit
  /-- One byte, the block-protect bits (41 R134). -/
  | protectBits
  deriving DecidableEq, Repr

/-- The response bytes, from the replies collected last and the status snapshot. -/
def answerBytes (a : Answer) (rbuf : List Byte) (st : Byte) : List Byte :=
  match a with
  | .empty => []
  | .replies => rbuf
  | .status => [st]
  | .busyBit => [boolByte (busyFlag st)]
  | .latchBit => [boolByte (welFlag st)]
  | .protectBits => [bpByte st]

/-! ## Parameters (00 R7) -/

/-- `POLL_DELAY`, time units between two polls (00 R7; 70 R263). -/
def pollDelay : Nat := 1

/-- `RESET_DELAY`, time units between {66} and {99} (00 R7; 70 R263). -/
def resetDelay : Nat := 1

/-- `SRW_ORDER` (00 R7; 45 R190; 92 D5; log entry 12). -/
def srwOrder : SrwOrder := .wePollWrite

/-- `PUBLIC_ONLY` (00 R7; 92 D3; log entry 13). -/
def publicOnly : Bool := false

/-- The five operations the source keeps internal (30 R90, column "surface"; 60 R229). -/
def isInternal : Op → Bool
  | .writeEnable | .writeDisable | .volatileSrWriteEnable | .enableReset | .resetDevice => true
  | .mfrDeviceId | .jedecId | .uniqueId | .readData | .fastRead | .pageProgram | .sectorErase | .blockErase
  | .chipErase | .readSr1 | .readSr2 | .readSr3 | .writeSr1 | .writeSr2 | .writeSr3 | .globalLock | .globalUnlock
  | .powerDown | .releasePowerDown | .releasePowerDownId | .reset | .isBusy | .isWriteEnabled | .blockProtectBits
  | .waitIdle => false

/-! ## Expansions that several operations share -/

/-- `WriteEnable()`: the transaction {06} (41 R135). -/
def writeEnableElem : Elem := .txn (plainTxn cmdWriteEnable)

/-- The W-P skeleton: write-enable, the mutating command, the poll (44 R174). -/
def writeThenPoll (t : Txn) : List Elem := [writeEnableElem, .txn t, .waitIdle]

/-- The register-write path `WriteSr`, in either order of write-enable and pre-poll (45 R190; 92 D5). -/
def writeSrPath (order : SrwOrder) (t : Txn) : List Elem :=
  match order with
  | .wePollWrite => [writeEnableElem, .waitIdle, .txn t]
  | .pollWeWrite => [.waitIdle, writeEnableElem, .txn t]

/-! ## The operands of a request (30 R90) -/

/-- The instruction a request asks for: the operation with the fields its row reads. A field it does not read affects
nothing (10 R23). -/
def requestInstr (r : Request) : Instr :=
  match r.op with
  | .mfrDeviceId => .mfrDeviceId
  | .jedecId => .jedecId
  | .uniqueId => .uniqueId
  | .readData => .readData r.addr r.len.toNat
  | .fastRead => .fastRead r.addr r.len.toNat
  | .pageProgram => .pageProgram r.addr r.wdata
  | .sectorErase => .sectorErase r.addr
  | .blockErase =>
    if r.bop = cmdBlockErase32k.opcode then .blockErase32k r.addr
    else if r.bop = cmdBlockErase64k.opcode then .blockErase64k r.addr
    else .blockErase r.addr r.bop
  | .chipErase => .chipErase
  | .writeEnable => .writeEnable
  | .writeDisable => .writeDisable
  | .volatileSrWriteEnable => .volatileSrWriteEnable
  | .readSr1 => .readSr1
  | .readSr2 => .readSr2
  | .readSr3 => .readSr3
  | .writeSr1 => .writeSr1 r.wval
  | .writeSr2 => .writeSr2 r.wval
  | .writeSr3 => .writeSr3 r.wval
  | .globalLock => .globalLock
  | .globalUnlock => .globalUnlock
  | .powerDown => .powerDown
  | .releasePowerDown => .releasePowerDown
  | .releasePowerDownId => .releasePowerDownId
  | .enableReset => .enableReset
  | .resetDevice => .resetDevice
  | .reset => .reset
  | .isBusy => .isBusy
  | .isWriteEnabled => .isWriteEnabled
  | .blockProtectBits => .blockProtectBits
  | .waitIdle => .waitIdle

/-- A request that asks for an instruction, its unread fields zero or empty (30 R91 for the two written forms). A length
that does not fit `LEN_W` bits is no well-formed instruction's, and only its low bits have a place here (log entry 10). -/
def requestOf (i : Instr) : Request :=
  let r (op : Op) : Request := ⟨op, 0, 0, [], 0, 0⟩
  match i with
  | .mfrDeviceId => r .mfrDeviceId
  | .jedecId => r .jedecId
  | .uniqueId => r .uniqueId
  | .readData addr len => { r .readData with addr := addr, len := BitVec.ofNat Config.lenW len }
  | .fastRead addr len => { r .fastRead with addr := addr, len := BitVec.ofNat Config.lenW len }
  | .pageProgram addr wdata => { r .pageProgram with addr := addr, wdata := wdata }
  | .sectorErase addr => { r .sectorErase with addr := addr }
  | .blockErase32k addr => { r .blockErase with addr := addr, bop := cmdBlockErase32k.opcode }
  | .blockErase64k addr => { r .blockErase with addr := addr, bop := cmdBlockErase64k.opcode }
  | .chipErase => r .chipErase
  | .writeEnable => r .writeEnable
  | .writeDisable => r .writeDisable
  | .volatileSrWriteEnable => r .volatileSrWriteEnable
  | .readSr1 => r .readSr1
  | .writeSr1 wval => { r .writeSr1 with wval := wval }
  | .readSr2 => r .readSr2
  | .writeSr2 wval => { r .writeSr2 with wval := wval }
  | .readSr3 => r .readSr3
  | .writeSr3 wval => { r .writeSr3 with wval := wval }
  | .globalLock => r .globalLock
  | .globalUnlock => r .globalUnlock
  | .powerDown => r .powerDown
  | .releasePowerDown => r .releasePowerDown
  | .releasePowerDownId => r .releasePowerDownId
  | .enableReset => r .enableReset
  | .resetDevice => r .resetDevice
  | .blockErase addr bop => { r .blockErase with addr := addr, bop := bop }
  | .reset => r .reset
  | .isBusy => r .isBusy
  | .isWriteEnabled => r .isWriteEnabled
  | .blockProtectBits => r .blockProtectBits
  | .waitIdle => r .waitIdle

end Sys2Proof.Machine
end

