-- ==== Sys2Proof/Machine/Ops.lean ====
section
/-! DEFINITION. The named operations over the state: the primitives of 00 R11, one step each (92 D19), the walk through
an expansion (10 R26; 40 R123), acceptance of a request, and the reset of the block (70 R240). The block has no
exception to take and none to return from (60 R220, R226, R227); the reset is the one thing that breaks an operation
off. -/

namespace Sys2Proof.Machine

/-- Append an event to the trace (00 R10). -/
def emit (e : Event) (s : State) : State := { s with trace := s.trace ++ [e] }

/-! ## The primitives -/

/-- `CsAssert()`, with the emptying of `rbuf` that opens every `Txn` (40 R111, R114; 10 R24). -/
def csAssert (s : State) : State :=
  { emit .csLow s with csN := false, cnt := 0, rbuf := [], env := envSelect s.env }

/-- `Xfer(out)`, one exchange: the reply is the environment's, and it is collected or ignored (40 R113, R115 to R117). -/
def xfer (out : Byte) (collect : Bool) (s : State) : State :=
  let r := envExchange out s.env
  { emit (.xfer out r.1) s with
    cnt := s.cnt + 1
    rbuf := if collect then s.rbuf ++ [r.1] else s.rbuf
    env := r.2 }

/-- `CsRelease()` (40 R112). -/
def csRelease (s : State) : State := { emit .csHigh s with csN := true, env := envDeselect s.env }

/-- `Delay(u)`: an event, and no clock (40 R120; 92 D10). -/
def delay (u : Nat) (s : State) : State := emit (.dly u) s

/-- The current element is complete: `upc` advances by one (10 R26). -/
def advance (s : State) : State := { s with upc := s.upc + 1, cnt := 0 }

/-- `Respond(rdata)`: the response is delivered, the block is idle, `upc` and `cnt` return to 0 (00 R11; 10 R22, R26). What
`rbuf` holds from here to the next CS- the spec leaves open (20 R78 keeps no read data, 10 R24 empties `rbuf` at the
next `Txn`): the bytes stay, and nothing reads them (DESIGN CHOICE, log entry 31). -/
def respond (rdata : List Byte) (s : State) : State :=
  { emit (.rsp rdata) s with seq := .idle, upc := 0, cnt := 0 }

/-- `st <- s` at the return of `ReadStatus1()` (41 R131). -/
def takeStatus (s : State) : State := { s with st := s.rbuf.headD 0 }

/-! ## Walking an expansion -/

/-- The transaction `ReadStatus1()` and the polling loop send (41 R131). -/
def statusTxn : Txn := plainTxn cmdReadSr1

/-- The next primitive of a transaction: CS-, the next byte, or CS+, after which `finish` says where to go (40 R114,
R118). -/
def txnPrimitive (t : Txn) (finish : State → State) (s : State) : State :=
  if s.csN then csAssert s
  else
    match (outBytes t)[s.cnt]? with
    | some out => xfer out (collects t s.cnt) s
    | none => finish (csRelease s)

/-- Whether the polling loop stands before its delay: its status read is over and showed busy (log entry 15). -/
def awaitsDelay (s : State) : Bool := s.csN && s.cnt == (outBytes statusTxn).length

/-- After a status read of the polling loop: bit 0 clear ends the loop with no delay, bit 0 set leaves the delay to do (41
R138). -/
def afterPoll (s : State) : State := if busyFlag (takeStatus s).st then takeStatus s else advance (takeStatus s)

/-- The next primitive of an element (10 R26). -/
def elemPrimitive (e : Elem) (s : State) : State :=
  match e with
  | .txn t => txnPrimitive t advance s
  | .readStatus1 => txnPrimitive statusTxn (fun u => advance (takeStatus u)) s
  | .waitIdle =>
    if awaitsDelay s then { delay pollDelay s with cnt := 0 } else txnPrimitive statusTxn afterPoll s
  | .delay u => advance (delay u s)

/-- One step of an operation: the next primitive of the element at `upc`, or the response after the last element (10 R26;
00 R14). It is a next state in every state: the block raises no exception (60 R220). -/
def perform (expansion : List Elem) (answer : Answer) (s : State) : Host.Outcome State Fault Refusal :=
  match expansion[s.upc]? with
  | some e => .next (elemPrimitive e s)
  | none => .next (respond (answerBytes answer s.rbuf s.st) s)

/-! ## Acceptance (10 R22, R23) -/

/-- Acceptance of a request: it is latched whole, and the block runs it from the start. -/
def accept (r : Request) (s : State) : State :=
  { emit (.req r) s with req := r, seq := .run, upc := 0, cnt := 0 }

/-- What the block does in IDLE: accept the request the host presents, or wait and change nothing (10 R22; 70 R241).
Under `PUBLIC_ONLY` = true the channel refuses the internal operations (00 R7; 60 R229). -/
def idleStep (onlyPublic : Bool) (s : State) : Host.Outcome State Fault Refusal :=
  match s.reqIn with
  | [] => .next s
  | r :: rest =>
    if onlyPublic && isInternal r.op then .refused (.internalOperation r.op)
    else .next (accept r { s with reqIn := rest })

/-! ## Reset of the block (70 R240) -/

/-- The effect of `rst`: every piece of the block's state at its reset value, whatever was going on; an operation is
abandoned with no response, and chip-select is released if it was low, which cuts the transaction short for the chip
(70 R240; 40 R118). The chip is not reset. -/
def blockReset (s : State) : State :=
  { s with
    csN := true
    seq := .idle
    req := Request.afterReset
    upc := 0
    cnt := 0
    rbuf := []
    st := stAfterReset
    trace := if s.csN then s.trace else s.trace ++ [.csHigh]
    env := if s.csN then s.env else envCut s.env }

/-- The level of the input `rst` at this step (log entry 3). -/
def rstLevel (s : State) : Bool := s.rst.headD false

/-- This step's level of `rst` has been taken. -/
def rstTaken (s : State) : State := { s with rst := s.rst.tail }

/-! ## Placing an instruction (log entry 7) -/

/-- The state in which the next step performs the first primitive of `i`: its request latched as an acceptance would
latch it, the block at the start of it, chip-select high, `rst` not asserted. -/
def latched (i : Instr) (s : State) : State :=
  { s with csN := true, seq := .run, req := requestOf i, upc := 0, cnt := 0, rst := [] }

end Sys2Proof.Machine
end

