-- ==== Sys2Proof/Machine/Identify.lean ====
section
/-! DEFINITION. Identification operations (42_identify.md): one transaction each, every collected byte returned in order and
unmodified (42 R153). -/

namespace Sys2Proof.Machine

/-- MFR_DEVICE_ID: `Txn(0x90, none, Read(5))`, the five replies (42 R150). -/
def execMfrDeviceId (s : State) : Host.Outcome State Fault Refusal :=
  perform [.txn (plainTxn cmdMfrDeviceId)] .replies s

/-- JEDEC_ID: `Txn(0x9F, none, Read(3))`, the three replies (42 R151). -/
def execJedecId (s : State) : Host.Outcome State Fault Refusal :=
  perform [.txn (plainTxn cmdJedecId)] .replies s

/-- UNIQUE_ID: `Txn(0x48, none, Read(5))`, the five replies (42 R152). -/
def execUniqueId (s : State) : Host.Outcome State Fault Refusal :=
  perform [.txn (plainTxn cmdUniqueId)] .replies s

end Sys2Proof.Machine
end

