-- ==== Sys2Proof/Machine/Latch.lean ====
section
/-! DEFINITION. Latch control, queries and the poll as an operation (41_status_latch_poll.md). -/

namespace Sys2Proof.Machine

/-- WRITE_ENABLE: {06}, not read back (41 R135, R141). -/
def execWriteEnable (s : State) : Host.Outcome State Fault Refusal :=
  perform [writeEnableElem] .empty s

/-- WRITE_DISABLE: {04} (41 R136). -/
def execWriteDisable (s : State) : Host.Outcome State Fault Refusal :=
  perform [.txn (plainTxn cmdWriteDisable)] .empty s

/-- VOLATILE_SR_WRITE_ENABLE: {50} (41 R137). -/
def execVolatileSrWriteEnable (s : State) : Host.Outcome State Fault Refusal :=
  perform [.txn (plainTxn cmdVolatileSrWriteEnable)] .empty s

/-- IS_BUSY: a fresh status read, answered by its bit 0 (41 R132). -/
def execIsBusy (s : State) : Host.Outcome State Fault Refusal :=
  perform [.readStatus1] .busyBit s

/-- IS_WRITE_ENABLED: a fresh status read, answered by its bit 1 (41 R133). -/
def execIsWriteEnabled (s : State) : Host.Outcome State Fault Refusal :=
  perform [.readStatus1] .latchBit s

/-- BLOCK_PROTECT_BITS: a fresh status read, answered by its bits 4:2 right-aligned (41 R134). -/
def execBlockProtectBits (s : State) : Host.Outcome State Fault Refusal :=
  perform [.readStatus1] .protectBits s

/-- WAIT_IDLE: the polling loop and nothing else (41 R139). -/
def execWaitIdle (s : State) : Host.Outcome State Fault Refusal :=
  perform [.waitIdle] .empty s

end Sys2Proof.Machine
end

