-- ==== Sys2Proof/Machine/LockPower.lean ====
section
/-! DEFINITION. Lock, power and reset operations (46_lock_power_reset.md): no write-enable before and no poll after any of them. -/

namespace Sys2Proof.Machine

/-- GLOBAL_LOCK: {7E} (46 R200). -/
def execGlobalLock (s : State) : Host.Outcome State Fault Refusal :=
  perform [.txn (plainTxn cmdGlobalLock)] .empty s

/-- GLOBAL_UNLOCK: {98} (46 R201). -/
def execGlobalUnlock (s : State) : Host.Outcome State Fault Refusal :=
  perform [.txn (plainTxn cmdGlobalUnlock)] .empty s

/-- POWER_DOWN: {B9}; the block records nothing (46 R202). -/
def execPowerDown (s : State) : Host.Outcome State Fault Refusal :=
  perform [.txn (plainTxn cmdPowerDown)] .empty s

/-- RELEASE_POWER_DOWN: {AB} alone (46 R203). -/
def execReleasePowerDown (s : State) : Host.Outcome State Fault Refusal :=
  perform [.txn (plainTxn cmdReleasePowerDown)] .empty s

/-- RELEASE_POWER_DOWN_ID: `Txn(0xAB, none, Read(4))`, the four replies (46 R204). -/
def execReleasePowerDownId (s : State) : Host.Outcome State Fault Refusal :=
  perform [.txn (plainTxn cmdReleasePowerDownId)] .replies s

/-- ENABLE_RESET: {66} (46 R205). -/
def execEnableReset (s : State) : Host.Outcome State Fault Refusal :=
  perform [.txn (plainTxn cmdEnableReset)] .empty s

/-- RESET_DEVICE: {99}; it resets the chip, not the block (46 R206). -/
def execResetDevice (s : State) : Host.Outcome State Fault Refusal :=
  perform [.txn (plainTxn cmdResetDevice)] .empty s

/-- RESET: {66}, a delay of one time unit, {99} (46 R207). -/
def execReset (s : State) : Host.Outcome State Fault Refusal :=
  perform [.txn (plainTxn cmdEnableReset), .delay resetDelay, .txn (plainTxn cmdResetDevice)] .empty s

end Sys2Proof.Machine
end

