-- ==== Sys2Proof/Machine/ProgramErase.lean ====
section
/-! DEFINITION. Program and erase (44_program_erase.md): write-enable, the mutating command, the poll, the empty response (44
R174). Addresses, lengths and `bop` are sent unchecked. -/

namespace Sys2Proof.Machine

/-- PAGE_PROGRAM (44 R170). -/
def execPageProgram (addr : Addr) (wdata : List Byte) (s : State) : Host.Outcome State Fault Refusal :=
  perform (writeThenPoll (commandTxn cmdPageProgram addr 0 wdata)) .empty s

/-- SECTOR_ERASE (44 R171). -/
def execSectorErase (addr : Addr) (s : State) : Host.Outcome State Fault Refusal :=
  perform (writeThenPoll (commandTxn cmdSectorErase addr 0 [])) .empty s

/-- BLOCK_ERASE with `bop` = 0x52 (44 R172). -/
def execBlockErase32k (addr : Addr) (s : State) : Host.Outcome State Fault Refusal :=
  perform (writeThenPoll (commandTxn cmdBlockErase32k addr 0 [])) .empty s

/-- BLOCK_ERASE with `bop` = 0xD8 (44 R172). -/
def execBlockErase64k (addr : Addr) (s : State) : Host.Outcome State Fault Refusal :=
  perform (writeThenPoll (commandTxn cmdBlockErase64k addr 0 [])) .empty s

/-- BLOCK_ERASE with any `bop`, sent unchanged (30 R89; 44 R172). -/
def execBlockErase (addr : Addr) (bop : Byte) (s : State) : Host.Outcome State Fault Refusal :=
  perform (writeThenPoll (commandTxn (cmdBlockErase bop) addr 0 [])) .empty s

/-- CHIP_ERASE (44 R173). -/
def execChipErase (s : State) : Host.Outcome State Fault Refusal :=
  perform (writeThenPoll (plainTxn cmdChipErase)) .empty s

end Sys2Proof.Machine
end

