-- ==== Sys2Proof/Machine/Read.lean ====
section
/-! DEFINITION. Array reads (43_read.md): one transaction each, the address as it is given (43 R162), no check and no poll. -/

namespace Sys2Proof.Machine

/-- READ_DATA: `Txn(0x03, some addr, Read(len))`, the `len` replies (43 R160). -/
def execReadData (addr : Addr) (len : Nat) (s : State) : Host.Outcome State Fault Refusal :=
  perform [.txn (commandTxn cmdReadData addr len [])] .replies s

/-- FAST_READ: as READ_DATA with the opcode changed, and no dummy byte (43 R161; 92 D22). -/
def execFastRead (addr : Addr) (len : Nat) (s : State) : Host.Outcome State Fault Refusal :=
  perform [.txn (commandTxn cmdFastRead addr len [])] .replies s

end Sys2Proof.Machine
end

