-- ==== Sys2Proof/Machine/StatusReg.lean ====
section
/-! DEFINITION. Status-register reads and writes (45_status_registers.md). -/

namespace Sys2Proof.Machine

/-- READ_SR1: `ReadStatus1()`, the byte whole (45 R185). -/
def execReadSr1 (s : State) : Host.Outcome State Fault Refusal :=
  perform [.readStatus1] .status s

/-- READ_SR2: `Txn(0x35, none, Read(1))`, the byte unmodified (45 R186). -/
def execReadSr2 (s : State) : Host.Outcome State Fault Refusal :=
  perform [.txn (plainTxn cmdReadSr2)] .replies s

/-- READ_SR3: `Txn(0x15, none, Read(1))`, the byte unmodified (45 R187). -/
def execReadSr3 (s : State) : Host.Outcome State Fault Refusal :=
  perform [.txn (plainTxn cmdReadSr3)] .replies s

/-- WRITE_SR1: `WriteSr(0x01, wval)`, no poll after (45 R190, R191). -/
def execWriteSr1 (wval : Byte) (s : State) : Host.Outcome State Fault Refusal :=
  perform (writeSrPath srwOrder (commandTxn cmdWriteSr1 0 0 [wval])) .empty s

/-- WRITE_SR2: `WriteSr(0x31, wval)`, no poll after (45 R190, R192). -/
def execWriteSr2 (wval : Byte) (s : State) : Host.Outcome State Fault Refusal :=
  perform (writeSrPath srwOrder (commandTxn cmdWriteSr2 0 0 [wval])) .empty s

/-- WRITE_SR3: `WriteSr(0x11, wval)`, no poll after (45 R190, R193). -/
def execWriteSr3 (wval : Byte) (s : State) : Host.Outcome State Fault Refusal :=
  perform (writeSrPath srwOrder (commandTxn cmdWriteSr3 0 0 [wval])) .empty s

end Sys2Proof.Machine
end

