-- ==== Sys2Proof/Machine/Dispatch.lean ====
section
/-! DEFINITION. One step of the instruction in progress: the dispatch to the meanings, one arm per constructor. -/

namespace Sys2Proof.Machine

/-- One step of the block in RUN: the next primitive of the instruction, at the position the state holds (10 R26). -/
def exec (i : Instr) (s : State) : Host.Outcome State Fault Refusal :=
  match i with
  | .mfrDeviceId => Sys2Proof.Machine.execMfrDeviceId s
  | .jedecId => Sys2Proof.Machine.execJedecId s
  | .uniqueId => Sys2Proof.Machine.execUniqueId s
  | .readData addr len => Sys2Proof.Machine.execReadData addr len s
  | .fastRead addr len => Sys2Proof.Machine.execFastRead addr len s
  | .pageProgram addr wdata => Sys2Proof.Machine.execPageProgram addr wdata s
  | .sectorErase addr => Sys2Proof.Machine.execSectorErase addr s
  | .blockErase32k addr => Sys2Proof.Machine.execBlockErase32k addr s
  | .blockErase64k addr => Sys2Proof.Machine.execBlockErase64k addr s
  | .chipErase => Sys2Proof.Machine.execChipErase s
  | .writeEnable => Sys2Proof.Machine.execWriteEnable s
  | .writeDisable => Sys2Proof.Machine.execWriteDisable s
  | .volatileSrWriteEnable => Sys2Proof.Machine.execVolatileSrWriteEnable s
  | .readSr1 => Sys2Proof.Machine.execReadSr1 s
  | .writeSr1 wval => Sys2Proof.Machine.execWriteSr1 wval s
  | .readSr2 => Sys2Proof.Machine.execReadSr2 s
  | .writeSr2 wval => Sys2Proof.Machine.execWriteSr2 wval s
  | .readSr3 => Sys2Proof.Machine.execReadSr3 s
  | .writeSr3 wval => Sys2Proof.Machine.execWriteSr3 wval s
  | .globalLock => Sys2Proof.Machine.execGlobalLock s
  | .globalUnlock => Sys2Proof.Machine.execGlobalUnlock s
  | .powerDown => Sys2Proof.Machine.execPowerDown s
  | .releasePowerDown => Sys2Proof.Machine.execReleasePowerDown s
  | .releasePowerDownId => Sys2Proof.Machine.execReleasePowerDownId s
  | .enableReset => Sys2Proof.Machine.execEnableReset s
  | .resetDevice => Sys2Proof.Machine.execResetDevice s
  | .blockErase addr bop => Sys2Proof.Machine.execBlockErase addr bop s
  | .reset => Sys2Proof.Machine.execReset s
  | .isBusy => Sys2Proof.Machine.execIsBusy s
  | .isWriteEnabled => Sys2Proof.Machine.execIsWriteEnabled s
  | .blockProtectBits => Sys2Proof.Machine.execBlockProtectBits s
  | .waitIdle => Sys2Proof.Machine.execWaitIdle s

end Sys2Proof.Machine
end

