-- ==== Sys2Proof/Machine/Step.lean ====
section
/-! DEFINITION. One step of the machine, and the placing of an instruction where the next step finds it. -/

namespace Sys2Proof.Machine

/-- One step (92 D19): with `rst` asserted the block is reset and does nothing else (70 R240); in IDLE a request is
accepted if one is presented (10 R22); in RUN the latched instruction performs its next primitive (10 R26). -/
def step (s : State) : Host.Outcome State Fault Refusal :=
  if rstLevel s then .next (blockReset (rstTaken s))
  else
    match s.seq with
    | .idle => idleStep publicOnly (rstTaken s)
    | .run => exec (requestInstr s.req) (rstTaken s)

/-- The state in which the very next step runs the instruction whose first `nbits` bits are `w`: its request latched, the
block in RUN at its start (log entry 7). Where the bits are no instruction the state is left as it is. -/
def State.withFetchWord (s : State) (nbits w : Nat) : State :=
  match decodeTableWord nbits w with
  | some i => latched i s
  | none => s

end Sys2Proof.Machine
end

