-- ==== Sys2Proof/Machine/Runs.lean ====
section
/-! DEFINITION. Whole transactions and whole operations: what several steps amount to, written from the spec's pseudocode
(40 R114; 41 R131, R138; 30 R90) and not from the steps. The machine does not use these; the claims do. -/

namespace Sys2Proof.Machine

/-! ## The operation table (30 R90) -/

/-- The expansion column of the operation table. -/
def expansionOf : Instr → List Elem
  | .mfrDeviceId => [.txn (plainTxn cmdMfrDeviceId)]
  | .jedecId => [.txn (plainTxn cmdJedecId)]
  | .uniqueId => [.txn (plainTxn cmdUniqueId)]
  | .readData addr len => [.txn (commandTxn cmdReadData addr len [])]
  | .fastRead addr len => [.txn (commandTxn cmdFastRead addr len [])]
  | .pageProgram addr wdata => writeThenPoll (commandTxn cmdPageProgram addr 0 wdata)
  | .sectorErase addr => writeThenPoll (commandTxn cmdSectorErase addr 0 [])
  | .blockErase32k addr => writeThenPoll (commandTxn cmdBlockErase32k addr 0 [])
  | .blockErase64k addr => writeThenPoll (commandTxn cmdBlockErase64k addr 0 [])
  | .chipErase => writeThenPoll (plainTxn cmdChipErase)
  | .writeEnable => [writeEnableElem]
  | .writeDisable => [.txn (plainTxn cmdWriteDisable)]
  | .volatileSrWriteEnable => [.txn (plainTxn cmdVolatileSrWriteEnable)]
  | .readSr1 => [.readStatus1]
  | .writeSr1 wval => writeSrPath srwOrder (commandTxn cmdWriteSr1 0 0 [wval])
  | .readSr2 => [.txn (plainTxn cmdReadSr2)]
  | .writeSr2 wval => writeSrPath srwOrder (commandTxn cmdWriteSr2 0 0 [wval])
  | .readSr3 => [.txn (plainTxn cmdReadSr3)]
  | .writeSr3 wval => writeSrPath srwOrder (commandTxn cmdWriteSr3 0 0 [wval])
  | .globalLock => [.txn (plainTxn cmdGlobalLock)]
  | .globalUnlock => [.txn (plainTxn cmdGlobalUnlock)]
  | .powerDown => [.txn (plainTxn cmdPowerDown)]
  | .releasePowerDown => [.txn (plainTxn cmdReleasePowerDown)]
  | .releasePowerDownId => [.txn (plainTxn cmdReleasePowerDownId)]
  | .enableReset => [.txn (plainTxn cmdEnableReset)]
  | .resetDevice => [.txn (plainTxn cmdResetDevice)]
  | .blockErase addr bop => writeThenPoll (commandTxn (cmdBlockErase bop) addr 0 [])
  | .reset => [.txn (plainTxn cmdEnableReset), .delay resetDelay, .txn (plainTxn cmdResetDevice)]
  | .isBusy => [.readStatus1]
  | .isWriteEnabled => [.readStatus1]
  | .blockProtectBits => [.readStatus1]
  | .waitIdle => [.waitIdle]

/-- The response column of the operation table. -/
def answerOf : Instr → Answer
  | .mfrDeviceId | .jedecId | .uniqueId | .readData _ _ | .fastRead _ _ | .readSr2 | .readSr3
  | .releasePowerDownId => .replies
  | .readSr1 => .status
  | .isBusy => .busyBit
  | .isWriteEnabled => .latchBit
  | .blockProtectBits => .protectBits
  | .pageProgram _ _ | .sectorErase _ | .blockErase32k _ | .blockErase64k _ | .blockErase _ _ | .chipErase
  | .writeEnable | .writeDisable | .volatileSrWriteEnable | .writeSr1 _ | .writeSr2 _ | .writeSr3 _ | .globalLock
  | .globalUnlock | .powerDown | .releasePowerDown | .enableReset | .resetDevice | .reset | .waitIdle => .empty

/-! ## Several steps of one instruction -/

/-- `n` steps of `exec i`, stopping at the first outcome that is not a next state. -/
def execRun (i : Instr) : Nat → State → Host.Outcome State Fault Refusal
  | 0, s => .next s
  | n + 1, s =>
    match exec i s with
    | .next t => execRun i n t
    | .fault f => .fault f
    | .refused r => .refused r

/-! ## Whole transactions (40 R114) -/

/-- The replies to a sequence of out-bytes, and the environment after the last. -/
def exchangeAll : List Byte → Env → List Byte × Env
  | [], e => ([], e)
  | out :: rest, e =>
    let r := envExchange out e
    let q := exchangeAll rest r.2
    (r.1 :: q.1, q.2)

/-- The environment's replies to a whole transaction, one per out-byte. -/
def txnReplies (t : Txn) (e : Env) : List Byte := (exchangeAll (outBytes t) (envSelect e)).1

/-- The environment after a whole transaction. -/
def txnEnv (t : Txn) (e : Env) : Env := envDeselect (exchangeAll (outBytes t) (envSelect e)).2

/-- The events of a transaction: CS-, one exchange per byte, CS+ (40 R114, R119). -/
def txnEvents (t : Txn) (ins : List Byte) : List Event :=
  .csLow :: List.zipWith .xfer (outBytes t) ins ++ [.csHigh]

/-- The result of `Txn`: the replies to the read data phase, in order, else nothing (40 R114). -/
def txnResult (t : Txn) (ins : List Byte) : List Byte :=
  match t.data with
  | .read _ => ins.drop (headerBytes t).length
  | .none => []
  | .write _ => []

/-- The state after a whole `Txn`. -/
def wholeTxn (t : Txn) (s : State) : State :=
  { s with
    csN := true
    cnt := (outBytes t).length
    rbuf := txnResult t (txnReplies t s.env)
    trace := s.trace ++ txnEvents t (txnReplies t s.env)
    env := txnEnv t s.env }

/-- How many steps a transaction takes: CS-, one per byte, CS+. -/
def txnSteps (t : Txn) : Nat := (outBytes t).length + 2

/-! ## The polling loop (41 R138) -/

/-- The status byte a status read returns (41 R131): the reply to its second exchange. -/
def statusOf (e : Env) : Byte := (txnReplies statusTxn e).getD 1 0

/-- A round of the loop that found busy: the status read, then the delay. -/
def busyRound (s : State) : State := { delay pollDelay (takeStatus (wholeTxn statusTxn s)) with cnt := 0 }

/-- `k` rounds that found busy. -/
def busyRounds : Nat → State → State
  | 0, s => s
  | k + 1, s => busyRounds k (busyRound s)

/-- The whole loop, when `k` reads find busy and the next finds idle. -/
def wholePoll (k : Nat) (s : State) : State := advance (takeStatus (wholeTxn statusTxn (busyRounds k s)))

/-- The environment answers busy to the next `k` status reads. -/
def busyFor : Nat → Env → Bool
  | 0, _ => true
  | k + 1, e => busyFlag (statusOf e) && busyFor k (txnEnv statusTxn e)

/-- The environment answers busy to the next `k` status reads and idle to the one after. -/
def idleAfter : Nat → Env → Bool
  | 0, e => !busyFlag (statusOf e)
  | k + 1, e => busyFlag (statusOf e) && idleAfter k (txnEnv statusTxn e)

/-! ## Whole operations -/

/-- An element from its start to its end; a polling loop reads busy `k` times first. -/
def wholeElem (k : Nat) (e : Elem) (s : State) : State :=
  match e with
  | .txn t => advance (wholeTxn t s)
  | .readStatus1 => advance (takeStatus (wholeTxn statusTxn s))
  | .waitIdle => wholePoll k s
  | .delay u => advance (delay u s)

/-- The elements of an expansion one after the other (20 R60). -/
def wholeElems (k : Nat) : List Elem → State → State
  | [], s => s
  | e :: rest, s => wholeElems k rest (wholeElem k e s)

/-- Every polling loop among the elements reads busy exactly `k` times, then idle. -/
def pollsEnd (k : Nat) : List Elem → State → Bool
  | [], _ => true
  | e :: rest, s => (if e = .waitIdle then idleAfter k s.env else true) && pollsEnd k rest (wholeElem k e s)

/-- How many steps the elements take. -/
def elemSteps (k : Nat) : Elem → Nat
  | .txn t => txnSteps t
  | .readStatus1 => txnSteps statusTxn
  | .waitIdle => k * (txnSteps statusTxn + 1) + txnSteps statusTxn
  | .delay _ => 1

/-- How many steps an operation takes from its start, its response included. -/
def operationSteps (k : Nat) (i : Instr) : Nat := ((expansionOf i).map (elemSteps k)).sum + 1

/-- The whole operation: its elements, then its response (30 R90; 00 R14). -/
def wholeOperation (k : Nat) (i : Instr) (s : State) : State :=
  let t := wholeElems k (expansionOf i) s
  respond (answerBytes (answerOf i) t.rbuf t.st) t

end Sys2Proof.Machine
end

