-- ==== Sys2Proof/Safety.lean ====
section
/-! DEFINITION. What counts as a safe state and a well-behaved host, in the terms the claims use. -/

namespace Sys2Proof.Machine

/-! ## Where an operation starts, and what its transactions put on the bus -/

/-- The block stands before the first primitive of an operation (10 R26). -/
def State.AtStart (s : State) : Prop := s.csN = true ∧ s.upc = 0 ∧ s.cnt = 0

/-- The transaction an element sends, if it sends one. -/
def elemTxn : Elem → Option Txn
  | .txn t => some t
  | .readStatus1 => some statusTxn
  | .waitIdle => some statusTxn
  | .delay _ => none

/-- What one or more transactions do on the bus: their events, the replies to the last one's bytes, and the environment
after them. -/
structure BusRun where
  events : List Event
  replies : List Byte
  env : Env
  deriving DecidableEq, Repr

/-- One bracketed transaction with the given out-bytes: CS-, one exchange per byte, CS+ (30 R81). -/
def busTxn (outs : List Byte) (e : Env) : BusRun :=
  let q := exchangeAll outs (envSelect e)
  ⟨.csLow :: List.zipWith .xfer outs q.1 ++ [.csHigh], q.1, envDeselect q.2⟩

/-- The polling loop with `k` busy replies before an idle one: status reads `05 00` with a delay of 1 after each busy
one (41 R138). -/
def busPoll : Nat → Env → BusRun
  | 0, e => busTxn [0x05, 0x00] e
  | k + 1, e =>
    let q := busTxn [0x05, 0x00] e
    let p := busPoll k q.env
    ⟨q.events ++ .dly 1 :: p.events, p.replies, p.env⟩

/-! ## The bracket discipline of the bus (40 R118) -/

/-- One event against the level of chip-select: `none` if it may not occur at that level (40 R118; 10 R21). -/
def busEvent (csN : Option Bool) (e : Event) : Option Bool :=
  match csN, e with
  | some true, .csLow => some false
  | some false, .csHigh => some true
  | some false, .xfer _ _ => some false
  | some true, .dly _ => some true
  | some true, .req _ => some true
  | some true, .rsp _ => some true
  | _, _ => none

/-- The level of chip-select after a trace, or `none` if the trace breaks the discipline: CS- and CS+ alternate, starting
with CS-; every exchange lies between them; every delay, acceptance and response lies outside (40 R118). -/
def busLevel (trace : List Event) : Option Bool := trace.foldl busEvent (some true)

/-! ## Positions the block can be in (10 R21 to R26) -/

/-- How many replies have been collected when `k` bytes of a transaction are done (10 R24; 40 R117). -/
def collectedCount (t : Txn) (k : Nat) : Nat :=
  match t.data with
  | .read _ => k - (headerBytes t).length
  | .none => 0
  | .write _ => 0

/-- Inside a transaction: some of its bytes are done, the replies collected so far are in `rbuf`, and a chip that keeps
the contract has received exactly those bytes. -/
def insideTxn (t : Txn) (s : State) : Bool :=
  decide (s.cnt ≤ (outBytes t).length) && s.rbuf.length == collectedCount t s.cnt &&
    (!s.env.contract || s.env.chip.rx == (outBytes t).take s.cnt)

/-- The position of the block inside an element. -/
def elemPosition (e : Elem) (s : State) : Bool :=
  match e with
  | .txn t => if s.csN then s.cnt == 0 else insideTxn t s
  | .readStatus1 => if s.csN then s.cnt == 0 else insideTxn statusTxn s
  | .waitIdle =>
    if s.csN then s.cnt == 0 || (s.cnt == (outBytes statusTxn).length && busyFlag s.st) else insideTxn statusTxn s
  | .delay _ => s.csN && s.cnt == 0

/-- The position of the block inside an operation: at an element, or past the last one before the response. -/
def runPosition (expansion : List Elem) (s : State) : Bool :=
  match expansion[s.upc]? with
  | some e => elemPosition e s
  | none => s.upc == expansion.length && s.csN && s.cnt == 0

/-- The array's known bytes are in canonical form, and none of them lies in a region known to be blank. -/
def chipMemoryOk (c : Chip) : Bool := Memory.wf c.flash && c.flash.all fun cell => !isBlank c cell.1

/-- The invariant of the machine: the trace keeps the bracket discipline and ends at the level of `cs_n`; in IDLE
chip-select is high and `upc` and `cnt` are 0; in RUN the position is one the latched operation has; the array is
well-formed. -/
def State.Inv (s : State) : Prop :=
  busLevel s.trace = some s.csN ∧
  (s.seq = .idle → s.csN = true ∧ s.upc = 0 ∧ s.cnt = 0) ∧
  (s.seq = .run → runPosition (expansionOf (requestInstr s.req)) s = true) ∧
  chipMemoryOk s.env.chip = true

/-! ## The caller's duties (70 R247) -/

/-- What the source asks of the caller of an operation, for a chip of `size` bytes, and the block does not check:
addresses within the chip, no program across a page boundary (70 R254), no read past the end. -/
def callerDuty (size : Nat) : Instr → Bool
  | .readData addr len => decide (addr.toNat + len ≤ size)
  | .fastRead addr len => decide (addr.toNat + len ≤ size)
  | .pageProgram addr wdata =>
    decide (addr.toNat < size) && decide (addr.toNat % pageSize + wdata.length ≤ pageSize)
  | .sectorErase addr => decide (addr.toNat < size)
  | .blockErase32k addr => decide (addr.toNat < size)
  | .blockErase64k addr => decide (addr.toNat < size)
  | .blockErase _ _ => false
  | .mfrDeviceId | .jedecId | .uniqueId | .chipErase | .writeEnable | .writeDisable | .volatileSrWriteEnable
  | .readSr1 | .writeSr1 _ | .readSr2 | .writeSr2 _ | .readSr3 | .writeSr3 _ | .globalLock | .globalUnlock
  | .powerDown | .releasePowerDown | .releasePowerDownId | .enableReset | .resetDevice | .reset | .isBusy
  | .isWriteEnabled | .blockProtectBits | .waitIdle => true

end Sys2Proof.Machine
end

