-- ==== Sys2Proof/Certificates/Slice0/Obligations.lean ====
section
/-! DEFINITION. The statements about the machine, from the numbered rules of spec/. Each docstring names the rule or the
sections it rests on. A rule is written <file> R<n>; D<n>, U<n> are entries of 92 and 93; "log entry <n>" is
notes/assumptions/<n>.md. -/

open Sys2Proof Sys2Proof.Machine

/-! ## Encoding -/

/-- 40 R116: the address phase is present exactly when the descriptor says so, is three bytes, high, middle, low, and its
replies are not collected; the rule's corner cases. That the reply to the opcode is not collected either is 40 R115, the
spec's own choice (92 D17, log entry 28). -/
def Obligations.AddressPhaseIsThreeBytesHighFirst : Prop :=
  (∀ (c : Command) (addr : Addr) (len : Nat) (wdata : List Byte),
    headerBytes (commandTxn c addr len wdata) =
      c.opcode :: (if c.addressed then [addr.extractLsb' 16 8, addr.extractLsb' 8 8, addr.extractLsb' 0 8] else [])) ∧
  (∀ (t : Txn) (k : Nat), k < (headerBytes t).length → collects t k = false) ∧
  addrBytes 0x000000 = [0x00, 0x00, 0x00] ∧ addrBytes 0xFFFFFF = [0xFF, 0xFF, 0xFF] ∧
  addrBytes 0x000100 = [0x00, 0x01, 0x00] ∧ addrBytes 0x123456 = [0x12, 0x34, 0x56] ∧
  addrBytes 0x1ABCDEF = [0xAB, 0xCD, 0xEF]

/-- 30 R86, R87: 26 rows over the 25 listed opcode bytes; two rows with one opcode differ in their data phase; only 0xAB
has two forms, and that it has two rows is the spec's own reading (92 D7, log entry 28). -/
def Obligations.CommandTableHas26RowsOver25Opcodes : Prop :=
  commandTable.length = 26 ∧
  (commandTable.map Command.opcode).dedup.length = 25 ∧
  (∀ b : Byte, isListedOpcode b = true ↔
    b ∈ ([0x01, 0x02, 0x03, 0x04, 0x05, 0x06, 0x0B, 0x11, 0x15, 0x20, 0x31, 0x35, 0x48, 0x50, 0x52, 0x60, 0x66, 0x7E,
      0x90, 0x98, 0x99, 0x9F, 0xAB, 0xB9, 0xD8] : List Byte)) ∧
  commandTable.Pairwise (fun c d => c.opcode = d.opcode → c.opcode = 0xAB ∧ c.data = .none ∧ d.data = .read 4)

/-- 30 R86: a few transactions written out from the table, bit by bit, decode to the instructions they stand for, one or
more of every family. The two forms of 0xAB are the spec's own reading (92 D7, log entry 28). -/
def Obligations.WrittenWordsDecode : Prop :=
  decode [0b10011111, 0, 0, 0] = .ok .jedecId ∧
  decode [0b00000011, 0x12, 0x34, 0x56, 0, 0] = .ok (.readData 0x123456 2) ∧
  decode [0b00000010, 0x00, 0x10, 0x00, 0xDE, 0xAD] = .ok (.pageProgram 0x001000 [0xDE, 0xAD]) ∧
  decode [0b11011000, 0x01, 0x23, 0x45] = .ok (.blockErase64k 0x012345) ∧
  decode [0b00000110] = .ok .writeEnable ∧
  decode [0b00010001, 0x60] = .ok (.writeSr3 0x60) ∧
  decode [0b10101011] = .ok .releasePowerDown ∧
  decode [0b10101011, 0, 0, 0, 0] = .ok .releasePowerDownId

/-- 30 R81, R82, R86, R93: decoding the bytes of a well-formed instruction's command gives the instruction back, with every
operand at every value the encoding admits. Left out are only the BLOCK_ERASE requests whose opcode is one of the 25: on
the wire those are that command (93 U6). -/
def Obligations.DecodingAnEncodedCommandGivesItBack : Prop :=
  ∀ (i : Instr) (bytes : List Byte), i.wellFormed = true → encode i = some bytes →
    (∀ addr bop, i = .blockErase addr bop → isListedOpcode bop = false) → decode bytes = .ok i

/-- 30 R81, R93: whatever the decoder accepts is exactly the encoding of what it answers, so no two instructions share a
transaction and no byte is dropped. Over bytes the block never sends this says what log entry 9 (DEDUCED) chooses: the
decoder takes exact transactions with zero dummies and nothing else. -/
def Obligations.EncodingADecodedTransactionGivesItBack : Prop :=
  ∀ (bytes : List Byte) (i : Instr), decode bytes = .ok i → encode i = some bytes

/-- 30 R88, R89, R93: a transaction whose first byte is none of the 25 opcodes can only come from BLOCK_ERASE, and then it
has length 4. -/
def Obligations.UnlistedFirstByteComesFromBlockErase : Prop :=
  ∀ (op : Byte) (rest : List Byte) (i : Instr), isListedOpcode op = false → decode (op :: rest) = .ok i →
    rest.length = 3 ∧ ∃ addr, i = .blockErase addr op

/-! ## Requests, acceptance and the step -/

/-- 10 R26; 92 D19: with `rst` not asserted and an operation in progress, a step is one step of the latched instruction. -/
def Obligations.StepRunsTheLatchedInstruction : Prop :=
  ∀ s : State, s.rst.headD false = false → s.seq = .run →
    step s = exec (requestInstr s.req) { s with rst := s.rst.tail }

/-- Log entry 7 (DESIGN CHOICE): the very next step after the bits of a well-formed instruction are placed runs exactly that
instruction, from its first primitive. (A read whose length does not fit `LEN_W` bits has no request, log entry 10.) -/
def Obligations.PlacedInstructionRunsNext : Prop :=
  ∀ (s : State) (nbits w : Nat) (i : Instr), decodeTableWord nbits w = some i → i.wellFormed = true →
    step (s.withFetchWord nbits w) = exec i (s.withFetchWord nbits w) ∧ (s.withFetchWord nbits w).AtStart

/-- 10 R22; 00 R9; 92 D15: in IDLE with a request presented the block accepts it: it is latched whole, `seq` is RUN, `upc`
and `cnt` are 0; with none presented nothing happens (70 R241). Nothing else changes. That a wait leaves a reset of the
chip armed is the model's choice (log entry 33). -/
def Obligations.IdleBlockAcceptsOrWaits : Prop :=
  ∀ s : State, s.rst.headD false = false → s.seq = .idle →
    step s = match s.reqIn with
      | [] => .next { s with rst := s.rst.tail }
      | r :: rest => .next { s with rst := s.rst.tail, reqIn := rest, seq := .run, req := r, upc := 0, cnt := 0,
                                    trace := s.trace ++ [.req r] }

/-- 10 R23; 30 R90, column "reads": a field an operation does not read may hold any value and affects nothing. -/
def Obligations.UnreadRequestFieldsAffectNothing : Prop :=
  ∀ r q : Request, r.op = q.op →
    (r.op ∈ [.readData, .fastRead, .pageProgram, .sectorErase, .blockErase] → r.addr = q.addr) →
    (r.op ∈ [.readData, .fastRead] → r.len = q.len) →
    (r.op = .pageProgram → r.wdata = q.wdata) →
    (r.op = .blockErase → r.bop = q.bop) →
    (r.op ∈ [.writeSr1, .writeSr2, .writeSr3] → r.wval = q.wval) →
    requestInstr r = requestInstr q

/-- 00 R9; 30 R90: every well-formed instruction is asked for by some request, so each can be presented on REQ. -/
def Obligations.EveryInstructionCanBeRequested : Prop :=
  ∀ i : Instr, i.wellFormed = true → requestInstr (requestOf i) = i

/-- 00 R7, R9; 10 R23; 30 R91: whatever a request holds, the instruction it asks for is well-formed: a length fits `LEN_W`
bits, and a BLOCK_ERASE with one of the two legal opcodes is the instruction of that opcode. -/
def Obligations.EveryRequestAsksForAWellFormedInstruction : Prop :=
  ∀ r : Request, (requestInstr r).wellFormed = true

/-- 00 R7; 60 R229; 92 D3: under `PUBLIC_ONLY` = true exactly the five internal operations are refused; under false (the
spec's value) none is. -/
def Obligations.PublicOnlyRefusesExactlyTheInternalOperations : Prop :=
  publicOnly = false ∧
  ∀ (onlyPublic : Bool) (s : State) (r : Request) (rest : List Request), s.reqIn = r :: rest →
    idleStep onlyPublic s =
      if onlyPublic = true ∧
          r.op ∈ [.writeEnable, .writeDisable, .volatileSrWriteEnable, .enableReset, .resetDevice] then
        .refused (.internalOperation r.op)
      else .next (accept r { s with reqIn := rest })

/-! ## Reset -/

/-- 10 R34; 70 R240, R241: after reset chip-select is released, the block is IDLE and ready, `upc` and `cnt` are 0, `rbuf` is
empty; it performs no primitive and stays so until a request is presented, and then the first event is the acceptance. -/
def Obligations.ResetLeavesTheBlockIdleAndReleased : Prop :=
  State.reset.csN = true ∧ State.reset.seq = .idle ∧ State.reset.ready = true ∧ State.reset.upc = 0 ∧
  State.reset.cnt = 0 ∧ State.reset.rbuf = [] ∧
  step State.reset = .next State.reset ∧
  ∀ (r : Request) (rest : List Request), ∃ t, step { State.reset with reqIn := r :: rest } = .next t ∧
    t.trace = [.req r] ∧ t.csN = true ∧ t.seq = .run ∧ t.req = r

/-- 70 R240; 40 R118: with `rst` asserted, at any point of any operation, the step leaves the block's state at its reset
values, delivers no response, adds CS+ exactly if chip-select was low, and leaves the chip alone if it was high. The
values of `req` and `st`, which 10 R34 leaves unspecified, are not stated. That a reset of the chip that was armed stays
armed where chip-select was high is the model's choice (log entry 33). -/
def Obligations.BlockResetAbandonsTheOperation : Prop :=
  ∀ s : State, s.rst.headD false = true →
    ∃ t, step s = .next t ∧ t.csN = true ∧ t.seq = .idle ∧ t.upc = 0 ∧ t.cnt = 0 ∧ t.rbuf = [] ∧
      t.trace = s.trace ++ (if s.csN = true then [] else [.csHigh]) ∧ t.reqIn = s.reqIn ∧ t.rst = s.rst.tail ∧
      (s.csN = true → t.env = s.env) ∧ t.env.replies = s.env.replies ∧ t.env.drawn = s.env.drawn

/-! ## One step of an instruction -/

/-- 60 R220: the block raises no exception: every step, in every state, answers a next state. -/
def Obligations.NoStepFaultsOrRefuses : Prop := ∀ s : State, ∃ t, step s = .next t

/-- 40 R111, R114; 10 R24: every instruction starts by driving chip-select low with `rbuf` emptied; nothing else of the
block's state changes. -/
def Obligations.EveryInstructionOpensWithChipSelect : Prop :=
  ∀ (i : Instr) (s : State), s.AtStart →
    exec i s = .next { s with csN := false, rbuf := [], trace := s.trace ++ [.csLow], env := envSelect s.env }

/-- 40 R113, R115, R117; 10 R24: inside a transaction a step exchanges the next byte: the environment answers, the reply is
appended to `rbuf` in a read phase and ignored elsewhere; nothing else changes. -/
def Obligations.StepInsideATransactionExchangesOneByte : Prop :=
  ∀ (i : Instr) (s : State) (e : Elem) (t : Txn) (out : Byte), (expansionOf i)[s.upc]? = some e → elemTxn e = some t →
    s.csN = false → (outBytes t)[s.cnt]? = some out →
    exec i s = .next { s with
      cnt := s.cnt + 1
      rbuf := match t.data with
        | .read _ => if (headerBytes t).length ≤ s.cnt then s.rbuf ++ [(envExchange out s.env).1] else s.rbuf
        | _ => s.rbuf
      trace := s.trace ++ [.xfer out (envExchange out s.env).1]
      env := (envExchange out s.env).2 }

/-- 40 R112; 10 R26: after the last byte of a plain transaction a step drives chip-select high and goes on to the next
element; nothing else of the block's state changes. -/
def Obligations.TransactionEndsByReleasingChipSelect : Prop :=
  ∀ (i : Instr) (s : State) (t : Txn), (expansionOf i)[s.upc]? = some (.txn t) → s.csN = false →
    (outBytes t).length ≤ s.cnt →
    exec i s = .next { s with csN := true, upc := s.upc + 1, cnt := 0, trace := s.trace ++ [.csHigh],
                              env := envDeselect s.env }

/-- 30 R90, column "response"; 00 R14; 10 R22, R26: past its last element every instruction delivers its response and the
block is IDLE with `upc` and `cnt` 0: nothing, the collected bytes, the status byte, or one derived byte (92 D8, D28).
What `rbuf` holds after the response is the model's choice (log entry 31). -/
def Obligations.EveryInstructionEndsWithItsResponse : Prop :=
  ∀ (i : Instr) (s : State), s.upc = (expansionOf i).length →
    exec i s = .next { s with
      seq := .idle
      upc := 0
      cnt := 0
      trace := s.trace ++ [.rsp (match i with
        | .mfrDeviceId | .jedecId | .uniqueId | .readData _ _ | .fastRead _ _ | .readSr2 | .readSr3
        | .releasePowerDownId => s.rbuf
        | .readSr1 => [s.st]
        | .isBusy => [if s.st.getLsbD 0 then 0x01 else 0x00]
        | .isWriteEnabled => [if s.st.getLsbD 1 then 0x01 else 0x00]
        | .blockProtectBits => [(s.st >>> 2) &&& 0x07]
        | _ => [])] }

/-- 41 R138; 92 D4: the polling loop goes on to the next element only at the CS+ of a status read whose bit 0 is clear;
until then `upc` stays. -/
def Obligations.PollEndsOnlyOnAnIdleRead : Prop :=
  ∀ (i : Instr) (s t : State), (expansionOf i)[s.upc]? = some .waitIdle → exec i s = .next t →
    t.upc = s.upc ∨
    (t.upc = s.upc + 1 ∧ s.csN = false ∧ 2 ≤ s.cnt ∧ t.csN = true ∧ t.st = s.rbuf.headD 0 ∧ t.st.getLsbD 0 = false)

/-! ## Frames -/

/-- 10 R20 to R26, R23; 20 R60: whatever an instruction does in a step, the latched request, the waiting requests and the
reset input stay, exactly one event is added to the trace, `upc` stays, advances by one or returns to 0, and the
environment keeps its kind. That no command changes the chip's identification bytes is log entry 29 (DESIGN CHOICE). -/
def Obligations.InstructionStepFrame : Prop :=
  ∀ (i : Instr) (s t : State), exec i s = .next t →
    t.req = s.req ∧ t.reqIn = s.reqIn ∧ t.rst = s.rst ∧ (∃ e, t.trace = s.trace ++ [e]) ∧
    (t.upc = s.upc ∨ t.upc = s.upc + 1 ∨ t.upc = 0) ∧ (t.seq = s.seq ∨ t.seq = .idle) ∧
    t.env.contract = s.env.contract ∧ t.env.chip.size = s.env.chip.size ∧ t.env.chip.jedec = s.env.chip.jedec ∧
    (s.env.contract = false → t.env.chip = s.env.chip)

/-- 10 R25, R28: only the end of a status-register-1 read made by the polling loop, by READ_SR1 or by a query writes the
status snapshot, with the byte collected; every other element of every instruction, and every instruction without such a
read, leaves it. -/
def Obligations.OnlyStatusReadsWriteTheSnapshot : Prop :=
  ∀ (i : Instr) (s t : State), exec i s = .next t →
    (t.st = s.st ∨
      ((expansionOf i)[s.upc]? ∈ [some .readStatus1, some .waitIdle] ∧ s.csN = false ∧ 2 ≤ s.cnt ∧ t.csN = true ∧
        t.st = s.rbuf.headD 0)) ∧
    ((expansionOf i)[s.upc]? ∉ [some .readStatus1, some .waitIdle] → t.st = s.st) ∧
    (i ∈ [.mfrDeviceId, .jedecId, .uniqueId, .writeEnable, .writeDisable, .volatileSrWriteEnable, .readSr2, .readSr3,
      .globalLock, .globalUnlock, .powerDown, .releasePowerDown, .releasePowerDownId, .enableReset, .resetDevice,
      .reset] ∨ (∃ addr len, i = .readData addr len ∨ i = .fastRead addr len) →
    t.st = s.st)

/-- 20 R57, R77: under the environment contract, from a state the machine's invariant allows, with the chip awake and
idle: an instruction that neither programs nor erases leaves every byte of the array as it was known, whatever it does
in the step. Where the element is 0x99 the reset must be armed (20 R66; 93 U11). That a read leaves the chip as it was is
log entry 19 (DEDUCED). POWER_DOWN is left out: what survives it is not in the source (60 R234; log entry 29), so after it
nothing is known of the array. -/
def Obligations.InstructionsThatDoNotStoreLeaveTheArray : Prop :=
  ∀ (i : Instr) (s t : State), s.Inv → s.seq = .run → requestInstr s.req = i → exec i s = .next t →
    s.env.contract = true → chipReady s.env.chip = true →
    (i = .resetDevice ∨ (i = .reset ∧ s.upc = 2) → s.env.chip.armed = .is true) →
    (∀ addr wdata, i ≠ .pageProgram addr wdata) → (∀ addr, i ≠ .sectorErase addr) →
    (∀ addr, i ≠ .blockErase32k addr) → (∀ addr, i ≠ .blockErase64k addr) → (∀ addr bop, i ≠ .blockErase addr bop) →
    i ≠ .chipErase → i ≠ .powerDown →
    ∀ a : Nat, cellAt t.env.chip.flash a = cellAt s.env.chip.flash a ∧ isBlank t.env.chip a = isBlank s.env.chip a

/-- 20 R57; 41 R138: whatever the state of the chip, busy or asleep or unknown, with or without the contract: no step of an
array read, an identification (the one that wakes apart), a status-register read or a query changes what is known of the
array, and no step of a polling loop does, in whichever instruction it stands. R57 says only that the source names no side
effect: that there is none, also at a chip that is busy or asleep, is the model's choice (log entry 19, DEDUCED). -/
def Obligations.ReadsAndPollsLeaveTheArray : Prop :=
  ∀ (i : Instr) (s t : State), s.Inv → s.seq = .run → requestInstr s.req = i → exec i s = .next t →
    i ∈ [.mfrDeviceId, .jedecId, .uniqueId, .readSr1, .readSr2, .readSr3, .isBusy, .isWriteEnabled, .blockProtectBits,
      .waitIdle] ∨ (∃ addr len, i = .readData addr len ∨ i = .fastRead addr len) ∨
      (expansionOf i)[s.upc]? = some .waitIdle →
    ∀ a : Nat, cellAt t.env.chip.flash a = cellAt s.env.chip.flash a ∧ isBlank t.env.chip a = isBlank s.env.chip a

/-! ## Whole transactions and operations -/

/-- 40 R114: `Txn`. From chip-select high at a transaction of any instruction: CS-, the opcode, the address bytes, the data
phase, CS+, the replies collected exactly in a read phase, and the next element next. -/
def Obligations.TransactionFollowsItsPseudocode : Prop :=
  ∀ (i : Instr) (s : State) (opc : Byte) (addr : Option Addr) (data : Phase),
    (expansionOf i)[s.upc]? = some (.txn ⟨opc, addr, data⟩) → s.csN = true →
    let header := opc :: (match addr with
      | some a => [a.extractLsb' 16 8, a.extractLsb' 8 8, a.extractLsb' 0 8]
      | none => [])
    let outs := header ++ (match data with
      | .none => []
      | .read n => List.replicate n 0x00
      | .write bytes => bytes)
    let q := busTxn outs s.env
    q.replies.length = outs.length ∧
    execRun i (outs.length + 2) s = .next { s with
      csN := true
      upc := s.upc + 1
      cnt := 0
      rbuf := match data with
        | .read _ => q.replies.drop header.length
        | _ => []
      trace := s.trace ++ q.events
      env := q.env }

/-- 30 R90; 20 R60; 00 R14: every operation, from its start, runs through its elements in order and then responds, whenever
each of its polls finds busy `k` times and then idle; the steps it takes are counted.
What `rbuf` holds after the response is the model's choice (log entry 31). -/
def Obligations.EveryOperationRunsToItsResponse : Prop :=
  ∀ (i : Instr) (k : Nat) (s : State), s.AtStart → pollsEnd k (expansionOf i) s = true →
    execRun i (operationSteps k i) s = .next (wholeOperation k i s)

/-- 40 R119; 41 R135, R136, R137; 46 R200, R201, R202, R203, R205, R206: the operations of one opcode byte: CS-, that byte, CS+,
and the empty response; no write-enable before, no poll after.
What `rbuf` holds after the response is the model's choice (log entry 31). -/
def Obligations.SingleByteOperationsSendOneByte : Prop :=
  ∀ (i : Instr) (op : Byte) (s : State),
    (i, op) ∈ [(.writeEnable, 0x06), (.writeDisable, 0x04), (.volatileSrWriteEnable, 0x50), (.globalLock, 0x7E),
      (.globalUnlock, 0x98), (.powerDown, 0xB9), (.releasePowerDown, 0xAB), (.enableReset, 0x66),
      ((.resetDevice, 0x99) : Instr × Byte)] → s.AtStart →
    let r := envExchange op (envSelect s.env)
    execRun i 4 s = .next { s with
      seq := .idle
      rbuf := []
      trace := s.trace ++ [.csLow, .xfer op r.1, .csHigh, .rsp []]
      env := envDeselect r.2 }

/-- 42 R150 to R153; 46 R204; 92 D7, D9: the identify operations send the opcode and 0x00 for each reply byte, and respond
with all the replies to these, in order.
What `rbuf` holds after the response is the model's choice (log entry 31). -/
def Obligations.IdentifyReturnsEveryReply : Prop :=
  ∀ (i : Instr) (op : Byte) (n : Nat) (s : State),
    (i, op, n) ∈ [(.mfrDeviceId, 0x90, 5), (.jedecId, 0x9F, 3), (.uniqueId, 0x48, 5),
      ((.releasePowerDownId, 0xAB, 4) : Instr × Byte × Nat)] → s.AtStart →
    let q := busTxn (op :: List.replicate n 0x00) s.env
    q.replies.length = n + 1 ∧
    execRun i (n + 4) s = .next { s with
      seq := .idle
      rbuf := q.replies.tail
      trace := s.trace ++ q.events ++ [.rsp q.replies.tail]
      env := q.env }

/-- 43 R160, R161, R162; 20 R54, R58: the reads send the opcode, the address as given and `len` zeros, and respond with the
`len` replies to these; `len` = 0 sends the address alone; nothing is checked (92 D11, D22).
What `rbuf` holds after the response is the model's choice (log entry 31). -/
def Obligations.ReadsReturnExactlyLenReplies : Prop :=
  ∀ (addr : Addr) (len : Nat) (i : Instr) (op : Byte) (s : State),
    (i, op) ∈ [(.readData addr len, 0x03), ((.fastRead addr len, 0x0B) : Instr × Byte)] → s.AtStart →
    let q := busTxn ([op, addr.extractLsb' 16 8, addr.extractLsb' 8 8, addr.extractLsb' 0 8] ++ List.replicate len 0x00)
      s.env
    (q.replies.drop 4).length = len ∧
    execRun i (len + 7) s = .next { s with
      seq := .idle
      rbuf := q.replies.drop 4
      trace := s.trace ++ q.events ++ [.rsp (q.replies.drop 4)]
      env := q.env }

/-- 41 R131 to R134; 45 R185; 92 D8, D28: READ_SR1 and the three queries each make a fresh status read and answer from that
byte: whole, bit 0, bit 1, or bits 4:2 right-aligned.
What `rbuf` holds after the response is the model's choice (log entry 31). -/
def Obligations.StatusQueriesAnswerFromAFreshRead : Prop :=
  ∀ s : State, s.AtStart →
    let q := busTxn [0x05, 0x00] s.env
    let v := q.replies.getD 1 0
    let after (rdata : List Byte) : State := { s with
      seq := .idle, rbuf := [v], st := v, trace := s.trace ++ q.events ++ [.rsp rdata], env := q.env }
    execRun .readSr1 5 s = .next (after [v]) ∧
    execRun .isBusy 5 s = .next (after [if v.getLsbD 0 then 0x01 else 0x00]) ∧
    execRun .isWriteEnabled 5 s = .next (after [if v.getLsbD 1 then 0x01 else 0x00]) ∧
    execRun .blockProtectBits 5 s = .next (after [BitVec.setWidth 8 (v.extractLsb' 2 3)])

/-- 45 R186, R187: READ_SR2 and READ_SR3 respond with the one reply byte, unmodified. -/
def Obligations.ReadSr2AndSr3ReturnTheReply : Prop :=
  ∀ (i : Instr) (op : Byte) (s : State), (i, op) ∈ [(.readSr2, 0x35), ((.readSr3, 0x15) : Instr × Byte)] → s.AtStart →
    let q := busTxn [op, 0x00] s.env
    ∃ rbuf, execRun i 5 s = .next { s with
      seq := .idle
      rbuf := rbuf
      trace := s.trace ++ q.events ++ [.rsp [q.replies.getD 1 0]]
      env := q.env }

/-- 46 R207: RESET transmits exactly 0x66, a delay of one unit with chip-select high, and 0x99, and responds empty. -/
def Obligations.ResetSends66DelaySends99 : Prop :=
  ∀ s : State, s.AtStart →
    let q := busTxn [0x66] s.env
    let p := busTxn [0x99] q.env
    ∃ rbuf, execRun .reset 8 s = .next { s with
      seq := .idle
      rbuf := rbuf
      trace := s.trace ++ q.events ++ [.dly 1] ++ p.events ++ [.rsp []]
      env := p.env }

/-- 44 R170 to R174; 30 R89; 41 R140: the program and erase operations send {06}, their one command with the address and data
as given (BLOCK_ERASE its `bop` unchanged), poll, and respond empty, when the chip is busy for `k` reads (92 D4, D6; data of any length, none and more than a page
among them, 92 D21).
What `rbuf` holds after the response is the model's choice (log entry 31). -/
def Obligations.ProgramAndEraseFollowTheSkeleton : Prop :=
  ∀ (i : Instr) (outs : List Byte) (k : Nat) (s : State) (addr : Addr) (wdata : List Byte) (bop : Byte),
    let a : List Byte := [addr.extractLsb' 16 8, addr.extractLsb' 8 8, addr.extractLsb' 0 8]
    (i, outs) ∈ [(.pageProgram addr wdata, 0x02 :: a ++ wdata), (.sectorErase addr, 0x20 :: a),
      (.blockErase32k addr, 0x52 :: a), (.blockErase64k addr, 0xD8 :: a), (.blockErase addr bop, bop :: a),
      ((.chipErase, [0x60]) : Instr × List Byte)] → s.AtStart →
    let q := busTxn [0x06] s.env
    let p := busTxn outs q.env
    let w := busPoll k p.env
    idleAfter k p.env = true →
    execRun i (outs.length + 5 * k + 10) s = .next { s with
      seq := .idle
      rbuf := [w.replies.getD 1 0]
      st := w.replies.getD 1 0
      trace := s.trace ++ q.events ++ p.events ++ w.events ++ [.rsp []]
      env := w.env }

/-- 45 R190 to R193; 92 D5 (the spec's own choice of order, log entry 12), D4 (the order inside the poll): the status-register writes send {06}, poll to idle,
send {wop wval} unmodified as the last transaction, and respond empty with no poll after.
What `rbuf` holds after the response is the model's choice (log entry 31). -/
def Obligations.StatusWritesPollBeforeAndNotAfter : Prop :=
  ∀ (i : Instr) (wop wval : Byte) (k : Nat) (s : State),
    (i, wop) ∈ [(.writeSr1 wval, 0x01), (.writeSr2 wval, 0x31), ((.writeSr3 wval, 0x11) : Instr × Byte)] → s.AtStart →
    let q := busTxn [0x06] s.env
    let w := busPoll k q.env
    let p := busTxn [wop, wval] w.env
    idleAfter k q.env = true →
    execRun i (5 * k + 12) s = .next { s with
      seq := .idle
      rbuf := []
      st := w.replies.getD 1 0
      trace := s.trace ++ q.events ++ w.events ++ p.events ++ [.rsp []]
      env := p.env }

/-- 41 R138, R139; 92 D4: WAIT_IDLE with `k` busy replies makes k + 1 status reads and k delays, alternating, ends with a
read, and responds empty.
What `rbuf` holds after the response is the model's choice (log entry 31). -/
def Obligations.WaitIdlePollsUntilIdle : Prop :=
  ∀ (k : Nat) (s : State), s.AtStart → idleAfter k s.env = true →
    let w := busPoll k s.env
    execRun .waitIdle (5 * k + 5) s = .next { s with
      seq := .idle
      rbuf := [w.replies.getD 1 0]
      st := w.replies.getD 1 0
      trace := s.trace ++ w.events ++ [.rsp []]
      env := w.env }

/-- 60 R235; 00 R14; 41 R138: while the chip answers busy the poll goes on: for as many reads as it stays busy the operation
takes next states, delivers no response and stays where it is; only these operations hold a poll. -/
def Obligations.BusyChipKeepsTheOperationPolling : Prop :=
  (∀ i : Instr, .waitIdle ∈ expansionOf i ↔
    i = .chipErase ∨ i = .waitIdle ∨ (∃ addr wdata, i = .pageProgram addr wdata) ∨
    (∃ addr, i = .sectorErase addr ∨ i = .blockErase32k addr ∨ i = .blockErase64k addr) ∨
    (∃ addr bop, i = .blockErase addr bop) ∨ (∃ wval, i = .writeSr1 wval ∨ i = .writeSr2 wval ∨ i = .writeSr3 wval)) ∧
  ∀ (i : Instr) (k n : Nat) (s : State), (expansionOf i)[s.upc]? = some .waitIdle → s.csN = true → s.cnt = 0 →
    busyFor k s.env = true → n ≤ 5 * k →
    ∃ t events, execRun i n s = .next t ∧ t.upc = s.upc ∧ t.seq = s.seq ∧ t.trace = s.trace ++ events ∧
      events.length = n ∧ ∀ rdata, .rsp rdata ∉ events

/-- 70 R264: the work of an operation in events: exchanges and delays of the trace it leaves, from its start to its response,
when each of its polls finds busy `k` times and then idle. -/
def Obligations.OperationWorkIsAsCounted : Prop :=
  ∀ (i : Instr) (k : Nat) (s : State), s.AtStart → pollsEnd k (expansionOf i) s = true →
    let isXfer : Event → Bool := fun e => match e with
      | .xfer _ _ => true
      | _ => false
    let isDly : Event → Bool := fun e => match e with
      | .dly 1 => true
      | _ => false
    ∃ t, execRun i (operationSteps k i) s = .next t ∧ t.seq = .idle ∧
    t.trace.countP isXfer = s.trace.countP isXfer + (match i with
      | .mfrDeviceId | .uniqueId => 6
      | .jedecId => 4
      | .releasePowerDownId => 5
      | .readData _ len | .fastRead _ len => 4 + len
      | .pageProgram _ wdata => 1 + (4 + wdata.length) + 2 * (k + 1)
      | .sectorErase _ | .blockErase32k _ | .blockErase64k _ | .blockErase _ _ => 1 + 4 + 2 * (k + 1)
      | .chipErase => 1 + 1 + 2 * (k + 1)
      | .writeSr1 _ | .writeSr2 _ | .writeSr3 _ => 1 + 2 * (k + 1) + 2
      | .readSr1 | .readSr2 | .readSr3 | .isBusy | .isWriteEnabled | .blockProtectBits => 2
      | .waitIdle => 2 * (k + 1)
      | .reset => 2
      | _ => 1) ∧
    t.trace.countP isDly = s.trace.countP isDly + (match i with
      | .pageProgram _ _ | .sectorErase _ | .blockErase32k _ | .blockErase64k _ | .blockErase _ _ | .chipErase
      | .writeSr1 _ | .writeSr2 _ | .writeSr3 _ | .waitIdle => k
      | .reset => 1
      | _ => 0)

/-! ## Invariants -/

/-- The invariant holds at reset. -/
def Obligations.InvariantHoldsAtReset : Prop := State.reset.Inv

/-- 40 R118; 10 R21, R22, R24, R26; log entry 26: every step keeps the invariant: chip-select brackets alternate and enclose
exactly the exchanges, `cs_n` is as the trace says and is 1 in IDLE and at every delay, acceptance and response, the
position is one the latched operation has, `rbuf` holds what was collected, and the array keeps its canonical form. -/
def Obligations.EveryStepKeepsTheInvariant : Prop := ∀ s t : State, s.Inv → step s = .next t → t.Inv

/-- 20 R60; 00 R10: a step adds at most one event to the trace and takes none away, so the trace is a total order in the order
the primitives are performed. -/
def Obligations.TraceOnlyGrows : Prop :=
  ∀ s t : State, step s = .next t → ∃ events, t.trace = s.trace ++ events ∧ events.length ≤ 1

/-! ## What the block does not depend on -/

/-- 20 R62; 10 R27; 41 R141: what a step sends does not depend on the environment: from states that differ in the
environment alone, `cs_n`, `seq`, `upc`, `cnt`, `st` and the event but for its reply come out the same, and `rbuf` has the
same length. -/
def Obligations.WhatIsSentDoesNotDependOnTheChip : Prop :=
  ∀ (i : Instr) (s : State) (env : Env),
    let sent : Event → Event := fun e => match e with
      | .xfer out _ => .xfer out 0
      | e => e
    ∃ t u, exec i s = .next t ∧ exec i { s with env := env } = .next u ∧ t.csN = u.csN ∧ t.seq = u.seq ∧
      t.upc = u.upc ∧ t.cnt = u.cnt ∧ t.st = u.st ∧ t.rbuf.length = u.rbuf.length ∧
      t.trace.map sent = u.trace.map sent

/-- 10 R25, R27: nothing an earlier operation read is used: from the start of an operation, whatever `rbuf` and `st` hold,
every number of steps gives the same trace, the same position and the same environment. -/
def Obligations.EarlierStatusIsNeverUsed : Prop :=
  ∀ (i : Instr) (n : Nat) (s : State) (rbuf : List Byte) (st : Byte), s.AtStart →
    ∃ t u, execRun i n s = .next t ∧ execRun i n { s with rbuf := rbuf, st := st } = .next u ∧
      t.trace = u.trace ∧ t.csN = u.csN ∧ t.seq = u.seq ∧ t.upc = u.upc ∧ t.cnt = u.cnt ∧ t.env = u.env

/-! ## The environment contract (20 section 7): premises about the chip, never behaviour of the block -/

/-- 20 R62; 00 R8; log entry 2: without the contract an exchange is answered by the next listed answer, whatever it is, and by
a free value when the list is empty; the chip plays no part. -/
def Obligations.WithoutAContractAnyReplyIsPossible : Prop :=
  ∀ (out b : Byte) (rest : List Byte) (e : Env), e.contract = false →
    envExchange out { e with replies := b :: rest } = (b, { e with replies := rest }) ∧
    envExchange out { e with replies := [] } =
      (Config.freeReply e.drawn, { e with replies := [], drawn := e.drawn + 1 })

/-- 20 R63: on a chip that keeps the contract and is awake and idle, WRITE_ENABLE leaves the latch set and WRITE_DISABLE
leaves it clear, and the array and the protect bits are not touched. That either disarms a reset is log entry 25
(DEDUCED), and that the volatile permission stays in force is log entry 32 (DESIGN CHOICE). -/
def Obligations.WriteEnableSetsAndWriteDisableClearsTheLatch : Prop :=
  ∀ s : State, s.AtStart → s.env.contract = true → chipReady s.env.chip = true →
    ∃ t u, execRun .writeEnable 4 s = .next t ∧ execRun .writeDisable 4 s = .next u ∧
      t.env.chip = { s.env.chip with rx := [], wel := .is true, armed := .is false } ∧
      u.env.chip = { s.env.chip with rx := [], wel := .is false, armed := .is false }

/-- 20 R68; 70 R247, R254; 93 U9: on a chip that keeps the contract, is awake and idle and has no block-protect bit set (93
U10), a PAGE_PROGRAM of a page inside the chip puts byte `j` of its data at page base + (addr + j) mod 256. A location one
byte goes to holds that byte if it was erased and any value if it was not; one that several bytes go to holds any value;
none of them is blank any more. Every other address, on the page or off it, stays as it was known. Within the caller's
duties byte `j` goes to `addr + j`. That an erased location takes the byte is log entry 23 (DEDUCED). -/
def Obligations.PageProgramStoresItsBytes : Prop :=
  ∀ (addr : Addr) (wdata : List Byte) (k : Nat) (s : State), s.AtStart → s.env.contract = true →
    chipReady s.env.chip = true → s.env.chip.bp = .is 0 → wdata ≠ [] →
    addr.toNat - addr.toNat % 256 + 256 ≤ s.env.chip.size →
    pollsEnd k (expansionOf (.pageProgram addr wdata)) s = true →
    let place (j : Nat) : Nat := addr.toNat - addr.toNat % 256 + (addr.toNat + j) % 256
    ∃ t, execRun (.pageProgram addr wdata) (operationSteps k (.pageProgram addr wdata)) s = .next t ∧
      t.env.chip.busy = .is false ∧
      (∀ (j : Nat) (w : Byte), wdata[j]? = some w → (∀ l < wdata.length, place l = place j → l = j) →
        cellAt t.env.chip.flash (place j) = if isBlank s.env.chip (place j) then .is w else .any) ∧
      (∀ j < wdata.length, ∀ l < j, place l = place j → cellAt t.env.chip.flash (place j) = .any) ∧
      (∀ j < wdata.length, isBlank t.env.chip (place j) = false) ∧
      (∀ a, (∀ j < wdata.length, a ≠ place j) →
        cellAt t.env.chip.flash a = cellAt s.env.chip.flash a ∧ isBlank t.env.chip a = isBlank s.env.chip a) ∧
      (callerDuty s.env.chip.size (.pageProgram addr wdata) = true →
        ∀ (j : Nat) (w : Byte), wdata[j]? = some w → isBlank s.env.chip (addr.toNat + j) = true →
          cellAt t.env.chip.flash (addr.toNat + j) = .is w)

/-- 20 R69; 44 R171, R172; 70 R255: on a chip that keeps the contract, is awake and idle and has no block-protect bit set (93
U10), an erase whose aligned region lies in the chip leaves exactly that region blank, with no known value in it, and every other address as it was known. -/
def Obligations.ErasesBlankExactlyTheAlignedRegion : Prop :=
  ∀ (i : Instr) (g : Nat) (addr : Addr) (k : Nat) (s : State),
    (i, g) ∈ [(.sectorErase addr, 4096), (.blockErase32k addr, 32768), ((.blockErase64k addr, 65536) : Instr × Nat)] →
    s.AtStart → s.env.contract = true → chipReady s.env.chip = true → s.env.chip.bp = .is 0 →
    addr.toNat - addr.toNat % g + g ≤ s.env.chip.size → pollsEnd k (expansionOf i) s = true →
    ∃ t, execRun i (operationSteps k i) s = .next t ∧ t.env.chip.busy = .is false ∧
      ∀ a, if addr.toNat - addr.toNat % g ≤ a ∧ a < addr.toNat - addr.toNat % g + g then
          cellAt t.env.chip.flash a = .any ∧ isBlank t.env.chip a = true
        else cellAt t.env.chip.flash a = cellAt s.env.chip.flash a ∧ isBlank t.env.chip a = isBlank s.env.chip a

/-- 20 R69; 44 R173: CHIP_ERASE leaves the whole array of such a chip, unprotected, blank. -/
def Obligations.ChipEraseBlanksTheWholeArray : Prop :=
  ∀ (k : Nat) (s : State), s.AtStart → s.env.contract = true → chipReady s.env.chip = true →
    s.env.chip.bp = .is 0 → pollsEnd k (expansionOf .chipErase) s = true →
    ∃ t, execRun .chipErase (operationSteps k .chipErase) s = .next t ∧ t.env.chip.busy = .is false ∧
      ∀ a, a < s.env.chip.size → cellAt t.env.chip.flash a = .any ∧ isBlank t.env.chip a = true

/-- 20 R68, R69, R54; 10 R32; 93 U10: on a chip that keeps the contract and is awake and idle, whatever its protect bits are
known to be, a program whose page lies in the chip changes nothing outside that page, an erase whose aligned region does
changes nothing outside that region, and neither changes the protect bits. -/
def Obligations.ProgramsAndErasesStayInTheirRegion : Prop :=
  ∀ (i : Instr) (g : Nat) (addr : Addr) (wdata : List Byte) (k : Nat) (s : State),
    (i, g) ∈ [(.pageProgram addr wdata, 256), (.sectorErase addr, 4096), (.blockErase32k addr, 32768),
      ((.blockErase64k addr, 65536) : Instr × Nat)] →
    s.AtStart → s.env.contract = true → chipReady s.env.chip = true →
    addr.toNat - addr.toNat % g + g ≤ s.env.chip.size → pollsEnd k (expansionOf i) s = true →
    ∃ t, execRun i (operationSteps k i) s = .next t ∧ t.env.chip.bp = s.env.chip.bp ∧
      ∀ a, ¬ (addr.toNat - addr.toNat % g ≤ a ∧ a < addr.toNat - addr.toNat % g + g) →
        cellAt t.env.chip.flash a = cellAt s.env.chip.flash a ∧ isBlank t.env.chip a = isBlank s.env.chip a

/-- 70 R253; 41 R138; 60 R234: from an awake chip that keeps the contract, busy or not and whatever else is known of it, a
program, an erase or WAIT_IDLE leaves the chip awake and idle, so that the operation requested next starts on an idle chip.
Protect bits, a latch that is clear, and an address outside the chip make no difference. A BLOCK_ERASE whose opcode byte is
that of POWER_DOWN is left out (93 U6). That nothing else puts the chip to sleep is log entry 35 (DEDUCED); that the chip
stays idle once a status read has shown it so is log entry 20 (DESIGN CHOICE). -/
def Obligations.PollAfterOperationsLeaveTheChipIdle : Prop :=
  ∀ (i : Instr) (k : Nat) (s : State),
    i = .chipErase ∨ i = .waitIdle ∨ (∃ addr wdata, i = .pageProgram addr wdata) ∨
      (∃ addr, i = .sectorErase addr ∨ i = .blockErase32k addr ∨ i = .blockErase64k addr) ∨
      (∃ addr bop, i = .blockErase addr bop ∧ bop ≠ 0xB9) →
    s.AtStart → s.env.contract = true → s.env.chip.asleep = .is false → pollsEnd k (expansionOf i) s = true →
    ∃ t, execRun i (operationSteps k i) s = .next t ∧ chipReady t.env.chip = true

/-- 20 R67: on a chip that keeps the contract and is awake and idle, every byte of a READ_DATA or FAST_READ response whose
address lies in the chip and has a known value is that value. That byte `j` of a FAST_READ is at `addr + j`, with no dummy
byte before, is the spec's own choice (92 D22, log entry 28). That this holds also for the bytes before the end of the chip
of a read that runs past it, whose replies the source leaves open (20 R58; 93 U4), is the model's choice (log entry 36,
DESIGN CHOICE). -/
def Obligations.ReadsReturnTheArrayBytes : Prop :=
  ∀ (addr : Addr) (len : Nat) (i : Instr) (s : State), i ∈ [.readData addr len, .fastRead addr len] → s.AtStart →
    s.env.contract = true → chipReady s.env.chip = true →
    ∃ t rdata, execRun i (len + 7) s = .next t ∧ t.trace.getLast? = some (.rsp rdata) ∧ rdata.length = len ∧
      ∀ (j : Nat) (b : Byte), j < len → addr.toNat + j < s.env.chip.size →
        cellAt s.env.chip.flash (addr.toNat + j) = .is b → rdata[j]? = some b

/-- 20 R74; 42 R151: on a chip that keeps the contract, is awake and idle and has a known JEDEC identification, JEDEC_ID
responds with its manufacturer byte and its two device-ID bytes. That the reset is disarmed is log entry 25 (DEDUCED), and
that the read leaves the chip otherwise as it was is log entry 19 (DEDUCED). -/
def Obligations.JedecIdReturnsTheChipsIdentification : Prop :=
  ∀ (m d e : Byte) (s : State), s.AtStart → s.env.contract = true → chipReady s.env.chip = true →
    s.env.chip.jedec = .is (m, d, e) →
    ∃ t, execRun .jedecId 7 s = .next t ∧ t.trace.getLast? = some (.rsp [m, d, e]) ∧
      t.env.chip = { s.env.chip with rx := [], armed := .is false }

/-- 20 R64, R65; 10 R28, R32: a status read from an awake chip that keeps the contract. Bit 0 is the
chip's busy bit from then on, and clear if no cycle was in progress. Bit 1 is the latch, which a cycle that the read finds
over has cleared. Bits 4:2 are the protect bits. That the end of a cycle is noticed at a status read and nowhere else is
log entry 20 (DESIGN CHOICE); that the read leaves the protect bits is log entry 19 (DEDUCED). -/
def Obligations.StatusReadShowsBusyLatchAndProtectBits : Prop :=
  ∀ s : State, s.AtStart → s.env.contract = true → s.env.chip.asleep = .is false →
    ∃ t, execRun .readSr1 5 s = .next t ∧ t.env.chip.busy = .is (t.st.getLsbD 0) ∧
      t.env.chip.wel = .is (t.st.getLsbD 1) ∧ t.env.chip.bp = s.env.chip.bp ∧
      (s.env.chip.busy = .is false → t.st.getLsbD 0 = false) ∧
      (∀ v, s.env.chip.wel = .is v → s.env.chip.busy = .is false → t.st.getLsbD 1 = v) ∧
      (∀ v, s.env.chip.wel = .is v → s.env.chip.busy = .is true → t.st.getLsbD 1 = (v && t.st.getLsbD 0)) ∧
      (∀ bits, s.env.chip.bp = .is bits → t.st.extractLsb' 2 3 = bits)

/-- 20 R66: a mutating command that reaches such a chip with the latch clear changes nothing of the array, the latch and the
busy bit. That the ignored command still disarms a reset is log entry 25 (DEDUCED). A BLOCK_ERASE with an opcode of no row
is no command the source describes (93 U6), so it is not among these. -/
def Obligations.MutatingCommandWithoutTheLatchDoesNothing : Prop :=
  ∀ (i : Instr) (c : Chip), chipReady c = true → c.wel = .is false → c.volatileArmed = .is false →
    i = .chipErase ∨ (∃ addr wdata, i = .pageProgram addr wdata) ∨
      (∃ addr, i = .sectorErase addr ∨ i = .blockErase32k addr ∨ i = .blockErase64k addr) ∨
      (∃ wval, i = .writeSr1 wval ∨ i = .writeSr2 wval ∨ i = .writeSr3 wval) →
    receive i c = { c with armed := .is false }

/-- 20 R70; 45 R190 to R193: on a chip that keeps the contract and is awake and idle, a status-register write starts a cycle:
after the operation the chip is busy with the latch set, and the array is as it was. The spec says only that the chip may
still be busy then (20 R65; 70 R252): that it is, and that the latch is set until a status read finds the cycle over, is
the model's choice (log entry 20, DESIGN CHOICE). -/
def Obligations.StatusWritesStartACycle : Prop :=
  ∀ (i : Instr) (wval : Byte) (s : State), i ∈ [.writeSr1 wval, .writeSr2 wval, .writeSr3 wval] → s.AtStart →
    s.env.contract = true → chipReady s.env.chip = true →
    ∃ t, execRun i 12 s = .next t ∧ t.env.chip.busy = .is true ∧ t.env.chip.wel = .is true ∧
      t.env.chip.asleep = .is false ∧ t.env.chip.flash = s.env.chip.flash ∧ t.env.chip.blank = s.env.chip.blank

/-- 20 R70: on a chip that keeps the contract and is awake and idle, VOLATILE_SR_WRITE_ENABLE leaves the next status-register
write permitted to be volatile, and touches neither the latch nor the array. (It disarms a reset, log entry 25, DEDUCED.) -/
def Obligations.VolatileSrWriteEnablePermitsAVolatileWrite : Prop :=
  ∀ s : State, s.AtStart → s.env.contract = true → chipReady s.env.chip = true →
    ∃ t, execRun .volatileSrWriteEnable 4 s = .next t ∧
      t.env.chip = { s.env.chip with rx := [], volatileArmed := .is true, armed := .is false }

/-- 20 R73; 46 R207: on a chip that keeps the contract and is awake and idle, RESET leaves the latch clear and the array as it
was. That the arming lasts through the delay of RESET is log entry 25 (DEDUCED), and that nothing but a command disarms
is log entry 33 (DESIGN CHOICE). -/
def Obligations.ResetClearsTheLatch : Prop :=
  ∀ s : State, s.AtStart → s.env.contract = true → chipReady s.env.chip = true →
    ∃ t, execRun .reset 8 s = .next t ∧ t.env.chip.wel = .is false ∧ t.env.chip.flash = s.env.chip.flash ∧
      t.env.chip.blank = s.env.chip.blank

/-- 20 R73; 46 R205, R206; 70 R256: on a chip that keeps the contract and is awake and idle, ENABLE_RESET arms the reset and
does nothing else; with the reset armed RESET_DEVICE clears the latch, the volatile permission and the arming and leaves
the array; and no transaction but 0x66 leaves the reset armed, so that a command in between disarms it (log entry 25,
DEDUCED). -/
def Obligations.EnableResetArmsAndOnlyItDoes : Prop :=
  (∀ s : State, s.AtStart → s.env.contract = true → chipReady s.env.chip = true →
    (∃ t, execRun .enableReset 4 s = .next t ∧ t.env.chip = { s.env.chip with rx := [], armed := .is true }) ∧
    (s.env.chip.armed = .is true → ∃ t, execRun .resetDevice 4 s = .next t ∧ t.env.chip.wel = .is false ∧
      t.env.chip.volatileArmed = .is false ∧ t.env.chip.armed = .is false ∧
      t.env.chip.flash = s.env.chip.flash ∧ t.env.chip.blank = s.env.chip.blank)) ∧
  ∀ c : Chip, (chipDeselect c).armed = .is true → c.rx = [0x66]

/-- 20 R72; 60 R234: on a chip that keeps the contract and is awake and idle, POWER_DOWN leaves it asleep; asleep, no command
but a release wakes it; from asleep, either release leaves it awake, with no time to wake (log entry 30). What else
survives, and whether the woken chip is ready, is not in the source and not stated (log entries 29 and 30); that a command
the sleeping chip meets changes nothing of its power state is log entry 35 (DEDUCED). -/
def Obligations.PowerDownSleepsAndReleaseWakes : Prop :=
  (∀ s : State, s.AtStart → s.env.contract = true → chipReady s.env.chip = true →
    ∃ t, execRun .powerDown 4 s = .next t ∧ t.env.chip.asleep = .is true) ∧
  (∀ (i : Instr) (c : Chip), c.asleep = .is true → i ≠ .releasePowerDown → i ≠ .releasePowerDownId →
    (receive i c).asleep = .is true) ∧
  ∀ (i : Instr) (n : Nat) (s : State),
    (i, n) ∈ [(.releasePowerDown, 4), ((.releasePowerDownId, 8) : Instr × Nat)] → s.AtStart →
    s.env.contract = true → s.env.chip.asleep = .is true →
    ∃ t, execRun i n s = .next t ∧ t.env.chip.asleep = .is false

/-- 20 R71; 10 R32; log entry 21 (the protect bits are taken to be SR1 bits 4:2, DEDUCED): with the latch set, GLOBAL_LOCK
leaves all protect bits set and GLOBAL_UNLOCK all clear, on such a chip. -/
def Obligations.LockSetsAndUnlockClearsTheProtectBits : Prop :=
  ∀ (i : Instr) (bits : BitVec 3) (s : State), (i, bits) ∈ [(.globalLock, 7), ((.globalUnlock, 0) : Instr × BitVec 3)] →
    s.AtStart → s.env.contract = true → chipReady s.env.chip = true → s.env.chip.wel = .is true →
    ∃ t, execRun i 4 s = .next t ∧ t.env.chip.bp = .is bits ∧ t.env.chip.flash = s.env.chip.flash
end

