-- ==== Sys2Proof/Laws/Chip.lean ====
section
/-! SUPPORT. The small lemmas of the array and of the environment: every memory operation keeps the canonical form, a byte
written is the byte known, and everything else stays. -/

namespace Sys2Proof.Machine

/-! ## The canonical form -/

theorem Memory.wf_iff_pairwise (m : List Host.Cell) :
    Memory.wf m = true ↔ m.Pairwise (fun c d => c.1 < d.1) := by
  induction m with
  | nil => simp [Memory.wf]
  | cons c rest ih =>
    cases rest with
    | nil => simp [Memory.wf]
    | cons d rest =>
      obtain ⟨a, v⟩ := c
      obtain ⟨b, w⟩ := d
      simp only [Memory.wf, Bool.and_eq_true, decide_eq_true_eq, ih, List.pairwise_cons, List.mem_cons]
      constructor
      · rintro ⟨hab, hb, hrest⟩
        refine ⟨?_, hb, hrest⟩
        rintro x (rfl | hx)
        · exact hab
        · exact lt_trans hab (hb x hx)
      · rintro ⟨ha, hb, hrest⟩
        exact ⟨ha _ (Or.inl rfl), hb, hrest⟩

theorem cellForget_wf (lo hi : Nat) {m : List Host.Cell} (h : Memory.wf m = true) :
    Memory.wf (cellForget lo hi m) = true := by
  rw [Memory.wf_iff_pairwise] at h ⊢
  exact h.filter _

theorem mem_cellSet {a : Nat} {b : Byte} {m : List Host.Cell} {c : Host.Cell} (h : c ∈ cellSet a b m) :
    c = (a, b) ∨ c ∈ m := by
  induction m with
  | nil => simpa [cellSet] using h
  | cons d rest ih =>
    obtain ⟨x, v⟩ := d
    simp only [cellSet] at h
    split at h
    · simpa using h
    · split at h
      · rcases List.mem_cons.1 h with h | h
        · exact Or.inl h
        · exact Or.inr (List.mem_cons_of_mem _ h)
      · rcases List.mem_cons.1 h with h | h
        · exact Or.inr (h ▸ List.mem_cons_self)
        · exact (ih h).imp id (List.mem_cons_of_mem _)

theorem cellSet_wf (a : Nat) (b : Byte) {m : List Host.Cell} (h : Memory.wf m = true) :
    Memory.wf (cellSet a b m) = true := by
  rw [Memory.wf_iff_pairwise] at h ⊢
  induction m with
  | nil => simp [cellSet]
  | cons d rest ih =>
    obtain ⟨x, v⟩ := d
    obtain ⟨hx, hrest⟩ := List.pairwise_cons.1 h
    simp only [cellSet]
    split
    next hlt =>
      refine List.pairwise_cons.2 ⟨?_, h⟩
      intro c hc
      rcases List.mem_cons.1 hc with rfl | hc
      · exact hlt
      · exact lt_trans hlt (hx c hc)
    next hnlt =>
      split
      next heq => exact List.pairwise_cons.2 ⟨fun c hc => heq ▸ hx c hc, hrest⟩
      next hne =>
        refine List.pairwise_cons.2 ⟨?_, ih hrest⟩
        intro c hc
        rcases mem_cellSet hc with rfl | hc
        · simp only; omega
        · exact hx c hc

theorem programByte_wf (a : Nat) (w : Byte) {c : Chip} (h : Memory.wf c.flash = true) :
    Memory.wf (programByte a w c).flash = true := by
  unfold programByte
  split
  · exact cellSet_wf a w h
  · exact cellForget_wf a (a + 1) h

theorem programFrom_wf (addr : Nat) (wdata : List Byte) (j : Nat) {c : Chip} (h : Memory.wf c.flash = true) :
    Memory.wf (programFrom addr j wdata c).flash = true := by
  induction wdata generalizing j c with
  | nil => exact h
  | cons w rest ih => exact ih (j + 1) (programByte_wf _ w h)

theorem forgetFrom_wf (addr : Nat) (wdata : List Byte) (j : Nat) {c : Chip} (h : Memory.wf c.flash = true) :
    Memory.wf (forgetFrom addr j wdata c).flash = true := by
  induction wdata generalizing j c with
  | nil => exact h
  | cons w rest ih => exact ih (j + 1) (cellForget_wf _ _ h)

theorem forgetRegion_wf (lo hi : Nat) {c : Chip} (h : Memory.wf c.flash = true) :
    Memory.wf (forgetRegion lo hi c).flash = true := cellForget_wf lo hi h

theorem eraseRegion_wf (lo hi : Nat) {c : Chip} (h : Memory.wf c.flash = true) :
    Memory.wf (eraseRegion lo hi c).flash = true := cellForget_wf lo hi h

theorem chipForget_wf (c : Chip) : Memory.wf (chipForget c).flash = true := rfl

theorem reset_memory_wf : Memory.wf State.reset.env.chip.flash = true := rfl

/-! ## Reading one byte -/

@[simp] theorem cellAt_nil (a : Nat) : cellAt [] a = .any := rfl

theorem cellAt_cons (x : Nat) (v : Byte) (m : List Host.Cell) (a : Nat) :
    cellAt ((x, v) :: m) a = if x = a then .is v else cellAt m a := by
  by_cases h : x = a <;> simp [cellAt, h]

theorem cellAt_cellSet_same (a : Nat) (b : Byte) (m : List Host.Cell) : cellAt (cellSet a b m) a = .is b := by
  induction m with
  | nil => simp [cellSet, cellAt_cons]
  | cons d rest ih =>
    obtain ⟨x, v⟩ := d
    simp only [cellSet]
    split
    · simp [cellAt_cons]
    · split
      · simp [cellAt_cons]
      next hne => simp [cellAt_cons, ih, Ne.symm hne]

theorem cellAt_cellSet_other {a c : Nat} (b : Byte) (m : List Host.Cell) (h : c ≠ a) :
    cellAt (cellSet a b m) c = cellAt m c := by
  induction m with
  | nil => simp [cellSet, cellAt_cons, Ne.symm h]
  | cons d rest ih =>
    obtain ⟨x, v⟩ := d
    simp only [cellSet]
    split
    · simp [cellAt_cons, Ne.symm h]
    · split
      next heq => subst heq; simp [cellAt_cons, Ne.symm h]
      · simp [cellAt_cons, ih]

theorem cellAt_cellForget_outside {lo hi a : Nat} (m : List Host.Cell) (h : ¬ (lo ≤ a ∧ a < hi)) :
    cellAt (cellForget lo hi m) a = cellAt m a := by
  induction m with
  | nil => rfl
  | cons d rest ih =>
    obtain ⟨x, v⟩ := d
    unfold cellForget at ih ⊢
    rw [List.filter_cons]
    split
    · rw [cellAt_cons, cellAt_cons, ih]
    next hx =>
      have : x ≠ a := by rintro rfl; simp at hx; omega
      rw [cellAt_cons, if_neg this, ih]

theorem cellAt_cellForget_inside {lo hi a : Nat} (m : List Host.Cell) (h : lo ≤ a ∧ a < hi) :
    cellAt (cellForget lo hi m) a = .any := by
  induction m with
  | nil => rfl
  | cons d rest ih =>
    obtain ⟨x, v⟩ := d
    unfold cellForget at ih ⊢
    rw [List.filter_cons]
    split
    next hx =>
      have : x ≠ a := by rintro rfl; simp at hx; omega
      rw [cellAt_cons, if_neg this, ih]
    · exact ih

/-! ## Regions -/

theorem inRegion_splitRegion (a b : Nat) (r : Nat × Nat) :
    (splitRegion a r).any (inRegion b) = (inRegion b r && decide (b ≠ a)) := by
  obtain ⟨lo, hi⟩ := r
  unfold splitRegion
  by_cases h : inRegion a (lo, hi) = true
  · have hl : lo ≤ a := by simp [inRegion] at h; omega
    have hu : a < hi := by simp [inRegion] at h; omega
    simp only [h, if_true]
    rw [Bool.eq_iff_iff]
    simp only [List.any_eq_true, List.mem_filter, List.mem_cons, List.not_mem_nil, or_false, decide_eq_true_eq,
      inRegion, Bool.and_eq_true]
    constructor
    · rintro ⟨q, ⟨rfl | rfl, hq⟩, hb⟩ <;> simp only at hb hq <;> omega
    · rintro ⟨hb, hne⟩
      rcases Nat.lt_or_gt_of_ne hne with hlt | hgt
      · exact ⟨(lo, a), ⟨Or.inl rfl, by simp only; omega⟩, by simp only; omega⟩
      · exact ⟨(a + 1, hi), ⟨Or.inr rfl, by simp only; omega⟩, by simp only; omega⟩
  · have hne : inRegion b (lo, hi) = true → b ≠ a := by rintro hb rfl; exact h hb
    simp only [h, Bool.false_eq_true, if_false, List.any_cons, List.any_nil, Bool.or_false]
    by_cases hb : inRegion b (lo, hi) = true
    · simp [hb, hne hb]
    · simp [hb]

theorem isBlank_forgetByte (a b : Nat) (c : Chip) : isBlank (forgetByte a c) b = (isBlank c b && decide (b ≠ a)) := by
  simp only [isBlank, forgetByte, List.any_flatMap, inRegion_splitRegion]
  induction c.blank with
  | nil => rfl
  | cons r rest ih => simp only [List.any_cons, ih]; cases inRegion b r <;> cases decide (b ≠ a) <;> simp

/-- After a byte is programmed it is blank no longer, and every other address is as blank as before. -/
theorem isBlank_programByte (a b : Nat) (w : Byte) (c : Chip) :
    isBlank (programByte a w c) b = (isBlank c b && decide (b ≠ a)) := by
  unfold programByte
  split
  next h =>
    simp only [isBlank, List.any_flatMap, inRegion_splitRegion]
    induction c.blank with
    | nil => rfl
    | cons r rest ih => simp only [List.any_cons, ih]; cases inRegion b r <;> cases decide (b ≠ a) <;> simp
  next h =>
    have hne : isBlank c b = true → b ≠ a := by rintro hb rfl; exact h hb
    by_cases hb : isBlank c b = true
    · simp only [isBlank] at hb hne ⊢; simp [hb, hne hb]
    · simp only [isBlank] at hb ⊢; simp [hb]

theorem cellAt_programByte_same (a : Nat) (w : Byte) (c : Chip) :
    cellAt (programByte a w c).flash a = if isBlank c a then .is w else .any := by
  unfold programByte
  split
  · exact cellAt_cellSet_same a w c.flash
  · exact cellAt_cellForget_inside c.flash (by omega)

theorem cellAt_programByte_other {a x : Nat} (w : Byte) (c : Chip) (h : x ≠ a) :
    cellAt (programByte a w c).flash x = cellAt c.flash x := by
  unfold programByte
  split
  · exact cellAt_cellSet_other w c.flash h
  · exact cellAt_cellForget_outside c.flash (by omega)

theorem programFrom_cons (addr j : Nat) (w : Byte) (rest : List Byte) (c : Chip) :
    programFrom addr j (w :: rest) c = programFrom addr (j + 1) rest (programByte (programPlace addr j) w c) := rfl

theorem forgetFrom_cons (addr j : Nat) (w : Byte) (rest : List Byte) (c : Chip) :
    forgetFrom addr j (w :: rest) c = forgetFrom addr (j + 1) rest (forgetByte (programPlace addr j) c) := rfl

/-- A page program changes nothing at an address none of its bytes goes to. -/
theorem cellAt_programFrom_outside (addr : Nat) (wdata : List Byte) (j : Nat) (c : Chip) (x : Nat)
    (h : ∀ i < wdata.length, x ≠ programPlace addr (j + i)) :
    cellAt (programFrom addr j wdata c).flash x = cellAt c.flash x := by
  induction wdata generalizing j c with
  | nil => rfl
  | cons w rest ih =>
    have hrest : ∀ i < rest.length, x ≠ programPlace addr (j + 1 + i) := by
      intro i hi
      have := h (i + 1) (by simpa using hi)
      rwa [show j + 1 + i = j + (i + 1) by omega]
    rw [programFrom_cons, ih _ _ hrest, cellAt_programByte_other _ _ (by simpa using h 0 (by simp))]

/-- After an erase an address is blank if it was, or if it lies in the region. -/
theorem isBlank_eraseRegion (lo hi a : Nat) (c : Chip) :
    isBlank (eraseRegion lo hi c) a = (isBlank c a || inRegion a (lo, hi)) := by
  simp only [isBlank, eraseRegion, List.any_cons, List.any_filter]
  rw [Bool.eq_iff_iff]
  simp only [Bool.or_eq_true, List.any_eq_true, Bool.and_eq_true, Bool.not_eq_true', inRegion, decide_eq_true_eq,
    Bool.and_eq_false_iff, decide_eq_false_iff_not]
  constructor
  · rintro (h | ⟨r, hr, _, ha⟩)
    · exact Or.inr h
    · exact Or.inl ⟨r, hr, ha⟩
  · rintro (⟨r, hr, ha⟩ | h)
    · by_cases hin : lo ≤ a ∧ a < hi
      · exact Or.inl hin
      · exact Or.inr ⟨r, hr, by omega, ha⟩
    · exact Or.inl h

/-- A reply changes nothing of the chip but what a status read settles: the busy bit and the latch. -/
theorem chipReply_chip (drawn : Byte) (c : Chip) :
    ∃ busy wel, (chipReply drawn c).2 = { c with busy := busy, wel := wel } := by
  unfold chipReply
  split
  · exact ⟨_, _, rfl⟩
  · split
    · unfold statusReply
      split <;> exact ⟨_, _, rfl⟩
    · repeat' split
      all_goals exact ⟨_, _, rfl⟩

/-! ## A command that arrives (20 R57, R66) -/

/-- At a chip that is awake and idle a command has its effect. -/
theorem receive_ready (i : Instr) {c : Chip} (h : chipReady c = true) :
    receive i c = commandEffect i (disarm i c) := by simp [receive, h]

/-- A read only disarms the reset, whatever the state of the chip. -/
theorem receive_read {i : Instr} (h : onlyReads i = true) (c : Chip) : receive i c = disarm i c := by
  have he : commandEffect i (disarm i c) = disarm i c := by cases i <;> simp_all [onlyReads, commandEffect]
  simp [receive, h, he]

/-- With the latch set and no protect bit set a program or an erase has its effect and the chip is busy (20 R65). -/
theorem mutating_latched (effect doubt : Chip → Chip) {c : Chip} (h : c.wel = .is true) (hb : c.bp = .is 0) :
    mutating effect doubt c = effect { c with busy := .is true } := by simp [mutating, h, hb]

/-- With the latch clear it is a silent no-op (20 R66). -/
theorem mutating_unlatched (effect doubt : Chip → Chip) {c : Chip} (h : c.wel = .is false) :
    mutating effect doubt c = c := by simp [mutating, h]

/-- The cases of a program or an erase: its effect in a busy chip, nothing, or the doubt between the two. -/
theorem mutating_cases (effect doubt : Chip → Chip) (c : Chip) :
    mutating effect doubt c = effect { c with busy := .is true } ∨ mutating effect doubt c = c ∨
      mutating effect doubt c = { doubt c with wel := .any, busy := .any } := by
  unfold mutating
  split
  · split
    · exact .inl rfl
    · exact .inr (.inr rfl)
  · exact .inr (.inl rfl)
  · exact .inr (.inr rfl)

/-- Dropping to any value keeps what is known of the power state (60 R234). -/
theorem chipForget_asleep (c : Chip) : (chipForget c).asleep = c.asleep := rfl

/-- A byte of a transaction other than a status read changes nothing of the chip. -/
theorem chipReply_chip_of_not_status (drawn : Byte) {c : Chip} (h : c.rx.head? ≠ some cmdReadSr1.opcode) :
    (chipReply drawn c).2 = c := by
  unfold chipReply
  split
  · rfl
  · rename_i op rest hr
    rw [if_neg (by rintro ⟨rfl, _⟩; exact h (by rw [hr]; rfl))]
    repeat' split
    all_goals rfl

/-! ## The environment without a contract (20 R62) -/

/-- Without a contract the reply is the next listed answer or a free value, and the chip is not touched. -/
theorem envExchange_free {e : Env} (h : e.contract = false) (out : Byte) : envExchange out e = envDraw e := by
  simp [envExchange, h]

theorem envSelect_free {e : Env} (h : e.contract = false) : envSelect e = e := by simp [envSelect, h]

theorem envDeselect_free {e : Env} (h : e.contract = false) : envDeselect e = e := by simp [envDeselect, h]

theorem envCut_free {e : Env} (h : e.contract = false) : envCut e = e := by simp [envCut, h]

theorem envDraw_listed {e : Env} {b : Byte} {rest : List Byte} (h : e.replies = b :: rest) :
    envDraw e = (b, { e with replies := rest }) := by simp [envDraw, h]

@[simp] theorem envDraw_contract (e : Env) : (envDraw e).2.contract = e.contract := by
  unfold envDraw; split <;> rfl

@[simp] theorem envDraw_chip (e : Env) : (envDraw e).2.chip = e.chip := by
  unfold envDraw; split <;> rfl

@[simp] theorem envExchange_contract (out : Byte) (e : Env) : (envExchange out e).2.contract = e.contract := by
  unfold envExchange; split <;> simp

@[simp] theorem envSelect_contract (e : Env) : (envSelect e).contract = e.contract := by
  unfold envSelect; split <;> rfl

@[simp] theorem envDeselect_contract (e : Env) : (envDeselect e).contract = e.contract := by
  unfold envDeselect; split <;> rfl

@[simp] theorem envCut_contract (e : Env) : (envCut e).contract = e.contract := by
  unfold envCut; split <;> rfl

end Sys2Proof.Machine
end

