-- ==== Sys2Proof/Laws/Contract.lean ====
section
/-! SUPPORT. A whole transaction at a chip that keeps the contract, said once: the chip collects the bytes, and what they
decode to takes effect at CS+ (20 R62 to R73). -/

namespace Sys2Proof.Machine

/-- The exchanges of a transaction other than a status read add its bytes to those received and change nothing else. -/
theorem exchangeAll_chip (outs : List Byte) {e : Env} (hc : e.contract = true)
    (h : ∀ k, (e.chip.rx ++ outs.take k).head? ≠ some cmdReadSr1.opcode) :
    (exchangeAll outs e).2.chip = { e.chip with rx := e.chip.rx ++ outs } ∧ (exchangeAll outs e).2.contract = true := by
  induction outs generalizing e with
  | nil => simp [exchangeAll, hc]
  | cons out rest ih =>
    have hx : (envExchange out e).2.chip = { e.chip with rx := e.chip.rx ++ [out] } := by
      simp only [envExchange, hc, if_true]
      rw [chipReply_chip_of_not_status _ (by simpa using h 0)]
    obtain ⟨h1, h2⟩ := ih (e := (envExchange out e).2) (by simp [hc]) (by
      intro k
      rw [hx]
      simpa using h (k + 1))
    simp [exchangeAll, h1, h2, hx]

/-- A whole transaction other than a status read: the chip receives the command its bytes decode to. -/
theorem txnEnv_chip {t : Txn} {e : Env} {i : Instr} (hc : e.contract = true) (ht : t.opc ≠ cmdReadSr1.opcode)
    (hd : decode (outBytes t) = .ok i) :
    (txnEnv t e).chip = { receive i { e.chip with rx := outBytes t } with rx := [] } ∧
      (txnEnv t e).contract = true := by
  have hs : (envSelect e).chip = { e.chip with rx := [] } := by simp [envSelect, hc, chipSelect]
  obtain ⟨h1, h2⟩ := exchangeAll_chip (outBytes t) (e := envSelect e) (by simp [hc]) (by
    intro k
    rw [hs]
    cases k with
    | zero => simp
    | succ k => simpa [outBytes, headerBytes] using ht)
  refine ⟨?_, by simpa [txnEnv] using h2⟩
  rw [txnEnv, envDeselect, if_pos h2]
  simp only [h1, hs, List.nil_append, chipDeselect, hd]

end Sys2Proof.Machine
end

