-- ==== Sys2Proof/Laws/Encoding.lean ====
section
/-! SUPPORT. The address bytes and their reading back, said once (30 R83, R93). -/

namespace Sys2Proof

theorem addrBytes_addr (a : Addr) :
    addrBytes a.toNat = [a.extractLsb' 16 8, a.extractLsb' 8 8, a.extractLsb' 0 8] := by
  simp only [addrBytes, List.cons.injEq, and_true]
  refine ⟨?_, ?_, ?_⟩ <;>
  · apply BitVec.eq_of_toNat_eq
    simp [BitVec.extractLsb'_toNat]

theorem addrOfBytes_addrBytes (a : Addr) :
    addrOfBytes (BitVec.ofNat 8 (a.toNat >>> 16)) (BitVec.ofNat 8 (a.toNat >>> 8)) (BitVec.ofNat 8 a.toNat) = a := by
  apply BitVec.eq_of_toNat_eq
  simp only [addrOfBytes, BitVec.toNat_ofNat, Nat.shiftRight_eq_div_pow]
  have := a.isLt
  omega

theorem addrBytes_addrOfBytes (a2 a1 a0 : Byte) : addrBytes (addrOfBytes a2 a1 a0).toNat = [a2, a1, a0] := by
  have h2 := a2.isLt
  have h1 := a1.isLt
  have h0 := a0.isLt
  simp only [addrBytes, addrOfBytes, List.cons.injEq, and_true]
  refine ⟨?_, ?_, ?_⟩ <;>
  · apply BitVec.eq_of_toNat_eq
    simp only [BitVec.toNat_ofNat, Nat.shiftRight_eq_div_pow]
    omega

end Sys2Proof
end

