-- ==== Sys2Proof/Laws/State.lean ====
section
/-! SUPPORT. Each field of the state after each named operation, so that no later proof unfolds a record update. -/

namespace Sys2Proof.Machine

/-! ## `emit` -/

@[simp] theorem emit_csN (e : Event) (s : State) : (emit e s).csN = s.csN := rfl
@[simp] theorem emit_seq (e : Event) (s : State) : (emit e s).seq = s.seq := rfl
@[simp] theorem emit_req (e : Event) (s : State) : (emit e s).req = s.req := rfl
@[simp] theorem emit_upc (e : Event) (s : State) : (emit e s).upc = s.upc := rfl
@[simp] theorem emit_cnt (e : Event) (s : State) : (emit e s).cnt = s.cnt := rfl
@[simp] theorem emit_rbuf (e : Event) (s : State) : (emit e s).rbuf = s.rbuf := rfl
@[simp] theorem emit_st (e : Event) (s : State) : (emit e s).st = s.st := rfl
@[simp] theorem emit_rst (e : Event) (s : State) : (emit e s).rst = s.rst := rfl
@[simp] theorem emit_reqIn (e : Event) (s : State) : (emit e s).reqIn = s.reqIn := rfl
@[simp] theorem emit_trace (e : Event) (s : State) : (emit e s).trace = s.trace ++ [e] := rfl
@[simp] theorem emit_env (e : Event) (s : State) : (emit e s).env = s.env := rfl

/-! ## `csAssert` -/

@[simp] theorem csAssert_csN (s : State) : (csAssert s).csN = false := rfl
@[simp] theorem csAssert_seq (s : State) : (csAssert s).seq = s.seq := rfl
@[simp] theorem csAssert_req (s : State) : (csAssert s).req = s.req := rfl
@[simp] theorem csAssert_upc (s : State) : (csAssert s).upc = s.upc := rfl
@[simp] theorem csAssert_cnt (s : State) : (csAssert s).cnt = 0 := rfl
@[simp] theorem csAssert_rbuf (s : State) : (csAssert s).rbuf = [] := rfl
@[simp] theorem csAssert_st (s : State) : (csAssert s).st = s.st := rfl
@[simp] theorem csAssert_rst (s : State) : (csAssert s).rst = s.rst := rfl
@[simp] theorem csAssert_reqIn (s : State) : (csAssert s).reqIn = s.reqIn := rfl
@[simp] theorem csAssert_trace (s : State) : (csAssert s).trace = s.trace ++ [.csLow] := rfl
@[simp] theorem csAssert_env (s : State) : (csAssert s).env = envSelect s.env := rfl

/-! ## `xfer` -/

@[simp] theorem xfer_csN (o : Byte) (c : Bool) (s : State) : (xfer o c s).csN = s.csN := rfl
@[simp] theorem xfer_seq (o : Byte) (c : Bool) (s : State) : (xfer o c s).seq = s.seq := rfl
@[simp] theorem xfer_req (o : Byte) (c : Bool) (s : State) : (xfer o c s).req = s.req := rfl
@[simp] theorem xfer_upc (o : Byte) (c : Bool) (s : State) : (xfer o c s).upc = s.upc := rfl
@[simp] theorem xfer_cnt (o : Byte) (c : Bool) (s : State) : (xfer o c s).cnt = s.cnt + 1 := rfl
@[simp] theorem xfer_rbuf (o : Byte) (c : Bool) (s : State) : (xfer o c s).rbuf = (if c then s.rbuf ++ [(envExchange o s.env).1] else s.rbuf) := rfl
@[simp] theorem xfer_st (o : Byte) (c : Bool) (s : State) : (xfer o c s).st = s.st := rfl
@[simp] theorem xfer_rst (o : Byte) (c : Bool) (s : State) : (xfer o c s).rst = s.rst := rfl
@[simp] theorem xfer_reqIn (o : Byte) (c : Bool) (s : State) : (xfer o c s).reqIn = s.reqIn := rfl
@[simp] theorem xfer_trace (o : Byte) (c : Bool) (s : State) : (xfer o c s).trace = s.trace ++ [.xfer o (envExchange o s.env).1] := rfl
@[simp] theorem xfer_env (o : Byte) (c : Bool) (s : State) : (xfer o c s).env = (envExchange o s.env).2 := rfl

/-! ## `csRelease` -/

@[simp] theorem csRelease_csN (s : State) : (csRelease s).csN = true := rfl
@[simp] theorem csRelease_seq (s : State) : (csRelease s).seq = s.seq := rfl
@[simp] theorem csRelease_req (s : State) : (csRelease s).req = s.req := rfl
@[simp] theorem csRelease_upc (s : State) : (csRelease s).upc = s.upc := rfl
@[simp] theorem csRelease_cnt (s : State) : (csRelease s).cnt = s.cnt := rfl
@[simp] theorem csRelease_rbuf (s : State) : (csRelease s).rbuf = s.rbuf := rfl
@[simp] theorem csRelease_st (s : State) : (csRelease s).st = s.st := rfl
@[simp] theorem csRelease_rst (s : State) : (csRelease s).rst = s.rst := rfl
@[simp] theorem csRelease_reqIn (s : State) : (csRelease s).reqIn = s.reqIn := rfl
@[simp] theorem csRelease_trace (s : State) : (csRelease s).trace = s.trace ++ [.csHigh] := rfl
@[simp] theorem csRelease_env (s : State) : (csRelease s).env = envDeselect s.env := rfl

/-! ## `delay` -/

@[simp] theorem delay_csN (u : Nat) (s : State) : (delay u s).csN = s.csN := rfl
@[simp] theorem delay_seq (u : Nat) (s : State) : (delay u s).seq = s.seq := rfl
@[simp] theorem delay_req (u : Nat) (s : State) : (delay u s).req = s.req := rfl
@[simp] theorem delay_upc (u : Nat) (s : State) : (delay u s).upc = s.upc := rfl
@[simp] theorem delay_cnt (u : Nat) (s : State) : (delay u s).cnt = s.cnt := rfl
@[simp] theorem delay_rbuf (u : Nat) (s : State) : (delay u s).rbuf = s.rbuf := rfl
@[simp] theorem delay_st (u : Nat) (s : State) : (delay u s).st = s.st := rfl
@[simp] theorem delay_rst (u : Nat) (s : State) : (delay u s).rst = s.rst := rfl
@[simp] theorem delay_reqIn (u : Nat) (s : State) : (delay u s).reqIn = s.reqIn := rfl
@[simp] theorem delay_trace (u : Nat) (s : State) : (delay u s).trace = s.trace ++ [.dly u] := rfl
@[simp] theorem delay_env (u : Nat) (s : State) : (delay u s).env = s.env := rfl

/-! ## `advance` -/

@[simp] theorem advance_csN (s : State) : (advance s).csN = s.csN := rfl
@[simp] theorem advance_seq (s : State) : (advance s).seq = s.seq := rfl
@[simp] theorem advance_req (s : State) : (advance s).req = s.req := rfl
@[simp] theorem advance_upc (s : State) : (advance s).upc = s.upc + 1 := rfl
@[simp] theorem advance_cnt (s : State) : (advance s).cnt = 0 := rfl
@[simp] theorem advance_rbuf (s : State) : (advance s).rbuf = s.rbuf := rfl
@[simp] theorem advance_st (s : State) : (advance s).st = s.st := rfl
@[simp] theorem advance_rst (s : State) : (advance s).rst = s.rst := rfl
@[simp] theorem advance_reqIn (s : State) : (advance s).reqIn = s.reqIn := rfl
@[simp] theorem advance_trace (s : State) : (advance s).trace = s.trace := rfl
@[simp] theorem advance_env (s : State) : (advance s).env = s.env := rfl

/-! ## `respond` -/

@[simp] theorem respond_csN (d : List Byte) (s : State) : (respond d s).csN = s.csN := rfl
@[simp] theorem respond_seq (d : List Byte) (s : State) : (respond d s).seq = .idle := rfl
@[simp] theorem respond_req (d : List Byte) (s : State) : (respond d s).req = s.req := rfl
@[simp] theorem respond_upc (d : List Byte) (s : State) : (respond d s).upc = 0 := rfl
@[simp] theorem respond_cnt (d : List Byte) (s : State) : (respond d s).cnt = 0 := rfl
@[simp] theorem respond_rbuf (d : List Byte) (s : State) : (respond d s).rbuf = s.rbuf := rfl
@[simp] theorem respond_st (d : List Byte) (s : State) : (respond d s).st = s.st := rfl
@[simp] theorem respond_rst (d : List Byte) (s : State) : (respond d s).rst = s.rst := rfl
@[simp] theorem respond_reqIn (d : List Byte) (s : State) : (respond d s).reqIn = s.reqIn := rfl
@[simp] theorem respond_trace (d : List Byte) (s : State) : (respond d s).trace = s.trace ++ [.rsp d] := rfl
@[simp] theorem respond_env (d : List Byte) (s : State) : (respond d s).env = s.env := rfl

/-! ## `takeStatus` -/

@[simp] theorem takeStatus_csN (s : State) : (takeStatus s).csN = s.csN := rfl
@[simp] theorem takeStatus_seq (s : State) : (takeStatus s).seq = s.seq := rfl
@[simp] theorem takeStatus_req (s : State) : (takeStatus s).req = s.req := rfl
@[simp] theorem takeStatus_upc (s : State) : (takeStatus s).upc = s.upc := rfl
@[simp] theorem takeStatus_cnt (s : State) : (takeStatus s).cnt = s.cnt := rfl
@[simp] theorem takeStatus_rbuf (s : State) : (takeStatus s).rbuf = s.rbuf := rfl
@[simp] theorem takeStatus_st (s : State) : (takeStatus s).st = s.rbuf.headD 0 := rfl
@[simp] theorem takeStatus_rst (s : State) : (takeStatus s).rst = s.rst := rfl
@[simp] theorem takeStatus_reqIn (s : State) : (takeStatus s).reqIn = s.reqIn := rfl
@[simp] theorem takeStatus_trace (s : State) : (takeStatus s).trace = s.trace := rfl
@[simp] theorem takeStatus_env (s : State) : (takeStatus s).env = s.env := rfl

/-! ## `accept` -/

@[simp] theorem accept_csN (r : Request) (s : State) : (accept r s).csN = s.csN := rfl
@[simp] theorem accept_seq (r : Request) (s : State) : (accept r s).seq = .run := rfl
@[simp] theorem accept_req (r : Request) (s : State) : (accept r s).req = r := rfl
@[simp] theorem accept_upc (r : Request) (s : State) : (accept r s).upc = 0 := rfl
@[simp] theorem accept_cnt (r : Request) (s : State) : (accept r s).cnt = 0 := rfl
@[simp] theorem accept_rbuf (r : Request) (s : State) : (accept r s).rbuf = s.rbuf := rfl
@[simp] theorem accept_st (r : Request) (s : State) : (accept r s).st = s.st := rfl
@[simp] theorem accept_rst (r : Request) (s : State) : (accept r s).rst = s.rst := rfl
@[simp] theorem accept_reqIn (r : Request) (s : State) : (accept r s).reqIn = s.reqIn := rfl
@[simp] theorem accept_trace (r : Request) (s : State) : (accept r s).trace = s.trace ++ [.req r] := rfl
@[simp] theorem accept_env (r : Request) (s : State) : (accept r s).env = s.env := rfl

/-! ## `blockReset` -/

@[simp] theorem blockReset_csN (s : State) : (blockReset s).csN = true := rfl
@[simp] theorem blockReset_seq (s : State) : (blockReset s).seq = .idle := rfl
@[simp] theorem blockReset_req (s : State) : (blockReset s).req = Request.afterReset := rfl
@[simp] theorem blockReset_upc (s : State) : (blockReset s).upc = 0 := rfl
@[simp] theorem blockReset_cnt (s : State) : (blockReset s).cnt = 0 := rfl
@[simp] theorem blockReset_rbuf (s : State) : (blockReset s).rbuf = [] := rfl
@[simp] theorem blockReset_st (s : State) : (blockReset s).st = stAfterReset := rfl
@[simp] theorem blockReset_rst (s : State) : (blockReset s).rst = s.rst := rfl
@[simp] theorem blockReset_reqIn (s : State) : (blockReset s).reqIn = s.reqIn := rfl
@[simp] theorem blockReset_trace (s : State) : (blockReset s).trace = (if s.csN then s.trace else s.trace ++ [.csHigh]) := rfl
@[simp] theorem blockReset_env (s : State) : (blockReset s).env = (if s.csN then s.env else envCut s.env) := rfl

/-! ## `rstTaken` -/

@[simp] theorem rstTaken_csN (s : State) : (rstTaken s).csN = s.csN := rfl
@[simp] theorem rstTaken_seq (s : State) : (rstTaken s).seq = s.seq := rfl
@[simp] theorem rstTaken_req (s : State) : (rstTaken s).req = s.req := rfl
@[simp] theorem rstTaken_upc (s : State) : (rstTaken s).upc = s.upc := rfl
@[simp] theorem rstTaken_cnt (s : State) : (rstTaken s).cnt = s.cnt := rfl
@[simp] theorem rstTaken_rbuf (s : State) : (rstTaken s).rbuf = s.rbuf := rfl
@[simp] theorem rstTaken_st (s : State) : (rstTaken s).st = s.st := rfl
@[simp] theorem rstTaken_rst (s : State) : (rstTaken s).rst = s.rst.tail := rfl
@[simp] theorem rstTaken_reqIn (s : State) : (rstTaken s).reqIn = s.reqIn := rfl
@[simp] theorem rstTaken_trace (s : State) : (rstTaken s).trace = s.trace := rfl
@[simp] theorem rstTaken_env (s : State) : (rstTaken s).env = s.env := rfl

/-! ## `latched` -/

@[simp] theorem latched_csN (i : Instr) (s : State) : (latched i s).csN = true := rfl
@[simp] theorem latched_seq (i : Instr) (s : State) : (latched i s).seq = .run := rfl
@[simp] theorem latched_req (i : Instr) (s : State) : (latched i s).req = requestOf i := rfl
@[simp] theorem latched_upc (i : Instr) (s : State) : (latched i s).upc = 0 := rfl
@[simp] theorem latched_cnt (i : Instr) (s : State) : (latched i s).cnt = 0 := rfl
@[simp] theorem latched_rbuf (i : Instr) (s : State) : (latched i s).rbuf = s.rbuf := rfl
@[simp] theorem latched_st (i : Instr) (s : State) : (latched i s).st = s.st := rfl
@[simp] theorem latched_rst (i : Instr) (s : State) : (latched i s).rst = [] := rfl
@[simp] theorem latched_reqIn (i : Instr) (s : State) : (latched i s).reqIn = s.reqIn := rfl
@[simp] theorem latched_trace (i : Instr) (s : State) : (latched i s).trace = s.trace := rfl
@[simp] theorem latched_env (i : Instr) (s : State) : (latched i s).env = s.env := rfl

end Sys2Proof.Machine
end

