-- ==== Sys2Proof/Laws/Ops.lean ====
section
/-! SUPPORT. What each shared operation can do, said once: the cases of a transaction's next primitive, of an element's,
of `perform` and of the block in IDLE. -/

namespace Sys2Proof.Machine

/-! ## The next primitive of a transaction (40 R114) -/

theorem txnPrimitive_released {t : Txn} {finish : State → State} {s : State} (h : s.csN = true) :
    txnPrimitive t finish s = csAssert s := by simp [txnPrimitive, h]

theorem txnPrimitive_byte {t : Txn} {finish : State → State} {s : State} {out : Byte} (h : s.csN = false)
    (hb : (outBytes t)[s.cnt]? = some out) : txnPrimitive t finish s = xfer out (collects t s.cnt) s := by
  simp [txnPrimitive, h, hb]

theorem txnPrimitive_end {t : Txn} {finish : State → State} {s : State} (h : s.csN = false)
    (hb : (outBytes t)[s.cnt]? = none) : txnPrimitive t finish s = finish (csRelease s) := by
  simp [txnPrimitive, h, hb]

/-- A transaction's next primitive is CS-, one exchange, or CS+ with its continuation. -/
theorem txnPrimitive_cases (t : Txn) (finish : State → State) (s : State) :
    (s.csN = true ∧ txnPrimitive t finish s = csAssert s) ∨
    (∃ out, s.csN = false ∧ (outBytes t)[s.cnt]? = some out ∧
      txnPrimitive t finish s = xfer out (collects t s.cnt) s) ∨
    (s.csN = false ∧ (outBytes t)[s.cnt]? = none ∧ txnPrimitive t finish s = finish (csRelease s)) := by
  cases h : s.csN with
  | true => exact .inl ⟨rfl, txnPrimitive_released h⟩
  | false =>
    cases hb : (outBytes t)[s.cnt]? with
    | some out => exact .inr (.inl ⟨out, rfl, rfl, txnPrimitive_byte h hb⟩)
    | none => exact .inr (.inr ⟨rfl, rfl, txnPrimitive_end h hb⟩)

/-! ## The next primitive of an element (10 R26) -/

/-- The polling loop either waits out its delay or goes on with its status read (41 R138). -/
theorem elemPrimitive_waitIdle_cases (s : State) :
    (awaitsDelay s = true ∧ elemPrimitive .waitIdle s = { delay pollDelay s with cnt := 0 }) ∨
    (awaitsDelay s = false ∧ elemPrimitive .waitIdle s = txnPrimitive statusTxn afterPoll s) := by
  cases h : awaitsDelay s with
  | true => exact .inl ⟨rfl, by simp [elemPrimitive, h]⟩
  | false => exact .inr ⟨rfl, by simp [elemPrimitive, h]⟩

/-- After a status read of the loop: bit 0 set stays, bit 0 clear goes on (41 R138). -/
theorem afterPoll_cases (s : State) :
    (busyFlag (takeStatus s).st = true ∧ afterPoll s = takeStatus s) ∨
    (busyFlag (takeStatus s).st = false ∧ afterPoll s = advance (takeStatus s)) := by
  cases h : busyFlag (takeStatus s).st with
  | true => exact .inl ⟨rfl, by simp only [afterPoll, h]; rfl⟩
  | false => exact .inr ⟨rfl, by simp only [afterPoll, h]; rfl⟩

/-! ## `perform` (10 R26; 60 R220) -/

theorem perform_elem {expansion : List Elem} {answer : Answer} {s : State} {e : Elem}
    (h : expansion[s.upc]? = some e) : perform expansion answer s = .next (elemPrimitive e s) := by
  simp [perform, h]

theorem perform_respond {expansion : List Elem} {answer : Answer} {s : State} (h : expansion[s.upc]? = none) :
    perform expansion answer s = .next (respond (answerBytes answer s.rbuf s.st) s) := by
  simp [perform, h]

/-- If `perform` answers next `t`, then `t` is the next primitive of the element at `upc`, or the response. -/
theorem perform_cases {expansion : List Elem} {answer : Answer} {s t : State}
    (h : perform expansion answer s = .next t) :
    (∃ e, expansion[s.upc]? = some e ∧ t = elemPrimitive e s) ∨
    (expansion[s.upc]? = none ∧ t = respond (answerBytes answer s.rbuf s.st) s) := by
  cases he : expansion[s.upc]? with
  | some e =>
    rw [perform_elem he] at h
    injection h with h
    exact .inl ⟨e, rfl, h.symm⟩
  | none =>
    rw [perform_respond he] at h
    injection h with h
    exact .inr ⟨rfl, h.symm⟩

/-! ## The block in IDLE (10 R22) -/

theorem idleStep_waits {onlyPublic : Bool} {s : State} (h : s.reqIn = []) : idleStep onlyPublic s = .next s := by
  simp [idleStep, h]

theorem idleStep_accepts {s : State} {r : Request} {rest : List Request} (h : s.reqIn = r :: rest) :
    idleStep publicOnly s = .next (accept r { s with reqIn := rest }) := by
  simp [idleStep, h, publicOnly]

/-- If the block in IDLE answers next `t`, then nothing was presented and nothing changed, or a request was accepted. -/
theorem idleStep_cases {onlyPublic : Bool} {s t : State} (h : idleStep onlyPublic s = .next t) :
    (s.reqIn = [] ∧ t = s) ∨ (∃ r rest, s.reqIn = r :: rest ∧ t = accept r { s with reqIn := rest }) := by
  unfold idleStep at h
  split at h
  next hq => injection h with h; exact .inl ⟨hq, h.symm⟩
  next r rest hq =>
    split at h
    · cases h
    · injection h with h; exact .inr ⟨r, rest, hq, h.symm⟩

end Sys2Proof.Machine
end

