-- ==== Sys2Proof/Laws/Exec.lean ====
section
/-! SUPPORT. What `exec` and `step` do, said once: `exec` performs the row of the operation table, and a step is a reset, an
acceptance, a wait, or the next primitive of the latched instruction. -/

namespace Sys2Proof.Machine

/-- Every meaning performs its row of 30 R90. -/
theorem exec_eq_perform (i : Instr) (s : State) : exec i s = perform (expansionOf i) (answerOf i) s := by
  cases i <;> rfl

theorem exec_elem {i : Instr} {s : State} {e : Elem} (h : (expansionOf i)[s.upc]? = some e) :
    exec i s = .next (elemPrimitive e s) := by rw [exec_eq_perform, perform_elem h]

theorem exec_respond {i : Instr} {s : State} (h : (expansionOf i)[s.upc]? = none) :
    exec i s = .next (respond (answerBytes (answerOf i) s.rbuf s.st) s) := by rw [exec_eq_perform, perform_respond h]

theorem execRun_succ {i : Instr} {n : Nat} {s t : State} (h : exec i s = .next t) :
    execRun i (n + 1) s = execRun i n t := by simp [execRun, h]

theorem execRun_add {i : Instr} {m n : Nat} {s t : State} (h : execRun i m s = .next t) :
    execRun i (m + n) s = execRun i n t := by
  induction m generalizing s with
  | zero => simp only [execRun] at h; injection h with h; simp [h]
  | succ m ih =>
    simp only [execRun] at h
    cases he : exec i s with
    | next u =>
      rw [he] at h
      rw [show m + 1 + n = (m + n) + 1 by omega, execRun_succ he, ih h]
    | fault f => rw [he] at h; cases h
    | refused r => rw [he] at h; cases h

/-- The cases of a step: a reset, a wait in IDLE, an acceptance, or one step of the latched instruction. -/
theorem step_cases {s t : State} (h : step s = .next t) :
    (rstLevel s = true ∧ t = blockReset (rstTaken s)) ∨
    (rstLevel s = false ∧ s.seq = .idle ∧ s.reqIn = [] ∧ t = rstTaken s) ∨
    (∃ r rest, rstLevel s = false ∧ s.seq = .idle ∧ s.reqIn = r :: rest ∧
      t = accept r { rstTaken s with reqIn := rest }) ∨
    (rstLevel s = false ∧ s.seq = .run ∧ exec (requestInstr s.req) (rstTaken s) = .next t) := by
  unfold step at h
  split at h
  next hr => injection h with h; exact .inl ⟨hr, h.symm⟩
  next hr =>
    have hr : rstLevel s = false := by simpa using hr
    cases hs : s.seq with
    | idle =>
      rw [hs] at h
      rcases idleStep_cases h with ⟨hq, ht⟩ | ⟨r, rest, hq, ht⟩
      · exact .inr (.inl ⟨hr, rfl, by simpa using hq, ht⟩)
      · exact .inr (.inr (.inl ⟨r, rest, hr, rfl, by simpa using hq, ht⟩))
    | run =>
      rw [hs] at h
      exact .inr (.inr (.inr ⟨hr, rfl, h⟩))

/-! ## Elements by what they put on the bus -/

theorem elemPrimitive_start {e : Elem} {t : Txn} (ht : elemTxn e = some t) {s : State} (hc : s.csN = true)
    (hw : e = .waitIdle → awaitsDelay s = false) : elemPrimitive e s = csAssert s := by
  cases e <;> simp_all [elemTxn, elemPrimitive, txnPrimitive]

theorem elemPrimitive_byte {e : Elem} {t : Txn} (ht : elemTxn e = some t) {s : State} {out : Byte}
    (hc : s.csN = false) (hb : (outBytes t)[s.cnt]? = some out) :
    elemPrimitive e s = xfer out (collects t s.cnt) s := by
  cases e with
  | txn u => cases ht; exact txnPrimitive_byte hc hb
  | readStatus1 => cases ht; rw [elemPrimitive]; exact txnPrimitive_byte hc hb
  | waitIdle =>
    cases ht
    rw [elemPrimitive, if_neg (by simp [awaitsDelay, hc])]
    exact txnPrimitive_byte hc hb
  | delay u => cases ht

/-- As many replies as bytes sent. -/
theorem exchangeAll_length (outs : List Byte) (e : Env) : (exchangeAll outs e).1.length = outs.length := by
  induction outs generalizing e with
  | nil => rfl
  | cons out rest ih => simp [exchangeAll, ih]

end Sys2Proof.Machine
end

