-- ==== Sys2Proof/Laws/PerInstr.lean ====
section
/-! SUPPORT. One law per constructor: the shape of an instruction's own transaction. -/

namespace Sys2Proof.Laws.EncodedShape

/-- The transaction of an instruction starts with the opcode of a row of 30 R86, or of a BLOCK_ERASE with another opcode
(30 R89), and is at least as long as the row's shortest (30 R82). -/
def Statement (i : Instr) : Prop :=
  ∀ bytes, encode i = some bytes →
    ∃ c : Command, (c ∈ commandTable ∨ ∃ bop, c = cmdBlockErase bop) ∧ bytes.head? = some c.opcode ∧
      shortestLength c ≤ bytes.length

/-- A transaction framed by a descriptor starts with its opcode and has its shortest length, when its data phase does. -/
theorem framed (c : Command) (addr : Addr) (len : Nat) (wdata : List Byte)
    (hm : c ∈ commandTable ∨ ∃ bop, c = cmdBlockErase bop) (hw : c.data = .writeByte → 1 ≤ wdata.length)
    {bytes : List Byte} (h : some (outBytes (commandTxn c addr len wdata)) = some bytes) :
    ∃ c : Command, (c ∈ commandTable ∨ ∃ bop, c = cmdBlockErase bop) ∧ bytes.head? = some c.opcode ∧
      shortestLength c ≤ bytes.length := by
  injection h with h
  subst h
  refine ⟨c, hm, rfl, ?_⟩
  obtain ⟨op, addressed, data⟩ := c
  cases addressed <;> cases data <;>
    simp_all [outBytes, headerBytes, commandTxn, phaseBytes, shortestLength, addrBytes] <;> omega

theorem mfrDeviceId : Statement .mfrDeviceId :=
  fun _ h => framed cmdMfrDeviceId 0 0 [] (.inl (by decide)) (by decide) h

theorem jedecId : Statement .jedecId := fun _ h => framed cmdJedecId 0 0 [] (.inl (by decide)) (by decide) h

theorem uniqueId : Statement .uniqueId := fun _ h => framed cmdUniqueId 0 0 [] (.inl (by decide)) (by decide) h

theorem readData (addr : Addr) (len : Nat) : Statement (.readData addr len) :=
  fun _ h => framed cmdReadData addr len [] (.inl (by decide)) (by decide) h

theorem fastRead (addr : Addr) (len : Nat) : Statement (.fastRead addr len) :=
  fun _ h => framed cmdFastRead addr len [] (.inl (by decide)) (by decide) h

theorem pageProgram (addr : Addr) (wdata : List Byte) : Statement (.pageProgram addr wdata) :=
  fun _ h => framed cmdPageProgram addr 0 wdata (.inl (by decide)) (fun h => by cases h) h

theorem sectorErase (addr : Addr) : Statement (.sectorErase addr) :=
  fun _ h => framed cmdSectorErase addr 0 [] (.inl (by decide)) (by decide) h

theorem blockErase32k (addr : Addr) : Statement (.blockErase32k addr) :=
  fun _ h => framed cmdBlockErase32k addr 0 [] (.inl (by decide)) (by decide) h

theorem blockErase64k (addr : Addr) : Statement (.blockErase64k addr) :=
  fun _ h => framed cmdBlockErase64k addr 0 [] (.inl (by decide)) (by decide) h

theorem chipErase : Statement .chipErase := fun _ h => framed cmdChipErase 0 0 [] (.inl (by decide)) (by decide) h

theorem writeEnable : Statement .writeEnable :=
  fun _ h => framed cmdWriteEnable 0 0 [] (.inl (by decide)) (by decide) h

theorem writeDisable : Statement .writeDisable :=
  fun _ h => framed cmdWriteDisable 0 0 [] (.inl (by decide)) (by decide) h

theorem volatileSrWriteEnable : Statement .volatileSrWriteEnable :=
  fun _ h => framed cmdVolatileSrWriteEnable 0 0 [] (.inl (by decide)) (by decide) h

theorem readSr1 : Statement .readSr1 := fun _ h => framed cmdReadSr1 0 0 [] (.inl (by decide)) (by decide) h

theorem writeSr1 (wval : Byte) : Statement (.writeSr1 wval) :=
  fun _ h => framed cmdWriteSr1 0 0 [wval] (.inl (by decide)) (fun _ => Nat.le_refl 1) h

theorem readSr2 : Statement .readSr2 := fun _ h => framed cmdReadSr2 0 0 [] (.inl (by decide)) (by decide) h

theorem writeSr2 (wval : Byte) : Statement (.writeSr2 wval) :=
  fun _ h => framed cmdWriteSr2 0 0 [wval] (.inl (by decide)) (fun _ => Nat.le_refl 1) h

theorem readSr3 : Statement .readSr3 := fun _ h => framed cmdReadSr3 0 0 [] (.inl (by decide)) (by decide) h

theorem writeSr3 (wval : Byte) : Statement (.writeSr3 wval) :=
  fun _ h => framed cmdWriteSr3 0 0 [wval] (.inl (by decide)) (fun _ => Nat.le_refl 1) h

theorem globalLock : Statement .globalLock := fun _ h => framed cmdGlobalLock 0 0 [] (.inl (by decide)) (by decide) h

theorem globalUnlock : Statement .globalUnlock :=
  fun _ h => framed cmdGlobalUnlock 0 0 [] (.inl (by decide)) (by decide) h

theorem powerDown : Statement .powerDown := fun _ h => framed cmdPowerDown 0 0 [] (.inl (by decide)) (by decide) h

theorem releasePowerDown : Statement .releasePowerDown :=
  fun _ h => framed cmdReleasePowerDown 0 0 [] (.inl (by decide)) (by decide) h

theorem releasePowerDownId : Statement .releasePowerDownId :=
  fun _ h => framed cmdReleasePowerDownId 0 0 [] (.inl (by decide)) (by decide) h

theorem enableReset : Statement .enableReset :=
  fun _ h => framed cmdEnableReset 0 0 [] (.inl (by decide)) (by decide) h

theorem resetDevice : Statement .resetDevice :=
  fun _ h => framed cmdResetDevice 0 0 [] (.inl (by decide)) (by decide) h

theorem blockErase (addr : Addr) (bop : Byte) : Statement (.blockErase addr bop) :=
  fun _ h => framed (cmdBlockErase bop) addr 0 [] (.inr ⟨bop, rfl⟩) (fun h => by cases h) h

theorem reset : Statement .reset := fun _ h => by cases h

theorem isBusy : Statement .isBusy := fun _ h => by cases h

theorem isWriteEnabled : Statement .isWriteEnabled := fun _ h => by cases h

theorem blockProtectBits : Statement .blockProtectBits := fun _ h => by cases h

theorem waitIdle : Statement .waitIdle := fun _ h => by cases h

end Sys2Proof.Laws.EncodedShape
end

