-- ==== Sys2Proof/Tests/Slice0.lean ====
section
/-! SUPPORT. The model's own tests: the WellFormed checks, every constructor's decoding by a written-out word, one step of
every instruction with a result taken from spec/95_test_vectors.md or a rule, and for every statement with hypotheses a
witness that meets them. -/

namespace Sys2Proof.Tests

open Sys2Proof.Machine

/-! ## WellFormed (00 R7; 30 R91) -/

theorem test_readData_length_must_fit (addr : Addr) : (Instr.readData addr (2 ^ Config.lenW)).wellFormed = false := by
  simp [Instr.wellFormed]

theorem test_fastRead_length_must_fit (addr : Addr) : (Instr.fastRead addr (2 ^ Config.lenW)).wellFormed = false := by
  simp [Instr.wellFormed]

/-- `LEN_W` is at least 9, so that 256 fits (00 R7). -/
theorem test_readData_of_256_fits (addr : Addr) : (Instr.readData addr 256).wellFormed = true := by
  have h : 2 ^ 9 ≤ 2 ^ Config.lenW := Nat.pow_le_pow_right (by decide) (Nat.le_add_right 9 Config.lenExtra)
  simp only [Instr.wellFormed, decide_eq_true_eq]
  omega

theorem test_blockErase_52_is_written_by_its_own_constructor :
    (Instr.blockErase 0x010000 0x52).wellFormed = false := by decide

theorem test_blockErase_D8_is_written_by_its_own_constructor :
    (Instr.blockErase 0x010000 0xD8).wellFormed = false := by decide

theorem test_blockErase_of_another_opcode_is_wellFormed : (Instr.blockErase 0x010000 0x20).wellFormed = true := by
  decide

/-! ## Decoding: one word of every constructor, from the encoding column of 30 R86 -/

theorem test_decode_mfrDeviceId : decode [0b10010000, 0, 0, 0, 0, 0] = .ok .mfrDeviceId := by decide

theorem test_decode_jedecId : decode [0b10011111, 0, 0, 0] = .ok .jedecId := by decide

theorem test_decode_uniqueId : decode [0b01001000, 0, 0, 0, 0, 0] = .ok .uniqueId := by decide

theorem test_decode_readData : decode [0b00000011, 0x12, 0x34, 0x56, 0, 0, 0, 0] = .ok (.readData 0x123456 4) := by decide

theorem test_decode_fastRead : decode [0b00001011, 0x00, 0x10, 0x00] = .ok (.fastRead 0x001000 0) := by decide

theorem test_decode_pageProgram : decode [0b00000010, 0x00, 0xFF, 0x00, 0x01, 0x02, 0x03] = .ok (.pageProgram 0x00FF00 [0x01, 0x02, 0x03]) := by decide

theorem test_decode_sectorErase : decode [0b00100000, 0x12, 0x34, 0x56] = .ok (.sectorErase 0x123456) := by decide

theorem test_decode_blockErase32k : decode [0b01010010, 0x01, 0x23, 0x45] = .ok (.blockErase32k 0x012345) := by decide

theorem test_decode_blockErase64k : decode [0b11011000, 0x01, 0x23, 0x45] = .ok (.blockErase64k 0x012345) := by decide

theorem test_decode_chipErase : decode [0b01100000] = .ok .chipErase := by decide

theorem test_decode_writeEnable : decode [0b00000110] = .ok .writeEnable := by decide

theorem test_decode_writeDisable : decode [0b00000100] = .ok .writeDisable := by decide

theorem test_decode_volatileSrWriteEnable : decode [0b01010000] = .ok .volatileSrWriteEnable := by decide

theorem test_decode_readSr1 : decode [0b00000101, 0] = .ok .readSr1 := by decide

theorem test_decode_writeSr1 : decode [0b00000001, 0x1C] = .ok (.writeSr1 0x1C) := by decide

theorem test_decode_readSr2 : decode [0b00110101, 0] = .ok .readSr2 := by decide

theorem test_decode_writeSr2 : decode [0b00110001, 0x02] = .ok (.writeSr2 0x02) := by decide

theorem test_decode_readSr3 : decode [0b00010101, 0] = .ok .readSr3 := by decide

theorem test_decode_writeSr3 : decode [0b00010001, 0x60] = .ok (.writeSr3 0x60) := by decide

theorem test_decode_globalLock : decode [0b01111110] = .ok .globalLock := by decide

theorem test_decode_globalUnlock : decode [0b10011000] = .ok .globalUnlock := by decide

theorem test_decode_powerDown : decode [0b10111001] = .ok .powerDown := by decide

theorem test_decode_releasePowerDown : decode [0b10101011] = .ok .releasePowerDown := by decide

theorem test_decode_releasePowerDownId : decode [0b10101011, 0, 0, 0, 0] = .ok .releasePowerDownId := by decide

theorem test_decode_enableReset : decode [0b01100110] = .ok .enableReset := by decide

theorem test_decode_resetDevice : decode [0b10011001] = .ok .resetDevice := by decide

theorem test_decode_blockErase : decode [0b00000000, 0x00, 0x10, 0x00] = .ok (.blockErase 0x001000 0x00) := by decide

theorem test_decode_refuses_nothing_sent : decode [] = .error .emptyTransaction := by decide

theorem test_decode_refuses_a_short_address : decode [0x20, 0x12, 0x34] = .error .addressTruncated := by decide

theorem test_decode_refuses_extra_data : decode [0x06, 0x00] = .error .wrongDataLength := by decide

theorem test_decode_refuses_a_nonzero_dummy : decode [0x05, 0xFF] = .error .readPhaseNotDummy := by decide

/-- 0xAB is told apart by its length (30 R87): two bytes is neither form. -/
theorem test_decode_refuses_a_half_AB : decode [0xAB, 0x00] = .error .wrongDataLength := by decide

/-! ## The opcode table's words: bit 0 is the lowest bit of the first byte, the high address byte is the second byte -/

theorem test_table_word_read_data : decodeTableWord 32 0x56341203 = some (.readData 0x123456 0) := by decide

theorem test_table_word_short_write : decodeTableWord 8 0x31 = some (.writeSr2 0x00) := by decide

theorem test_table_word_AB_by_length :
    decodeTableWord 8 0xAB = some .releasePowerDown ∧ decodeTableWord 40 0xAB = some .releasePowerDownId := by decide

/-! ## Small states -/

/-- The chip of the tests: awake, idle, latch set, unprotected, one known byte, the sector at 0x2000 blank. -/
def chip : Chip where
  rx := []
  wel := .is true
  busy := .is false
  bp := .is 0
  armed := .is true
  volatileArmed := .is false
  asleep := .is false
  flash := [(0x1000, 0xDE), (0x1001, 0xAD)]
  blank := [(0x2000, 0x3000)]
  jedec := .is (0xEF, 0x40, 0x16)
  size := 0x400000

/-- The block inside an operation, facing an environment without a contract that answers as listed. -/
def mid (csN : Bool) (upc cnt : Nat) (rbuf : List Byte) (st : Byte) (replies : List Byte) : State :=
  { State.reset with csN := csN, seq := .run, upc := upc, cnt := cnt, rbuf := rbuf, st := st,
                     env := ⟨replies, 0, false, chip⟩ }

/-- The block before an operation, facing an environment that answers as listed. -/
def start (replies : List Byte) : State := mid true 0 0 [] 0 replies

/-- The block inside an operation, facing a chip that keeps the contract. -/
def onChip (csN : Bool) (upc cnt : Nat) (rbuf : List Byte) (c : Chip) (replies : List Byte) : State :=
  { mid csN upc cnt rbuf 0 replies with env := ⟨replies, 0, true, c⟩ }

/-- The next state, if that is the outcome. -/
def nextOf (o : Host.Outcome State Fault Refusal) : Option State :=
  match o with
  | .next t => some t
  | .fault _ => none
  | .refused _ => none

/-- The last event of the next state. -/
def lastEvent (o : Host.Outcome State Fault Refusal) : Option Event := (nextOf o).bind fun t => t.trace.getLast?

/-! ## One step of every instruction -/

/-- V50: the fifth reply is to the sixth byte. -/
theorem test_mfrDeviceId_sixth_byte :
    lastEvent (exec .mfrDeviceId (mid false 0 5 [1, 2, 3, 4] 0 [0x15])) = some (.xfer 0x00 0x15) := by decide

/-- V54: order kept, nothing dropped. -/
theorem test_mfrDeviceId_responds_with_five :
    lastEvent (exec .mfrDeviceId (mid true 1 0 [1, 2, 3, 4, 5] 0 [])) = some (.rsp [1, 2, 3, 4, 5]) := by decide

/-- V3: the reply to the opcode byte is dropped. -/
theorem test_jedecId_opcode_reply_is_dropped :
    (nextOf (exec .jedecId (mid false 0 0 [] 0 [0x11]))).map (fun t => (t.rbuf, t.cnt)) = some ([], 1) := by decide

/-- S6: four bytes, then CS+. -/
theorem test_jedecId_ends_after_four_bytes :
    lastEvent (exec .jedecId (mid false 0 4 [0xEF, 0x40, 0x16] 0 [])) = some (.csHigh) := by decide

/-- V52. -/
theorem test_uniqueId_opens_with_48 :
    lastEvent (exec .uniqueId (mid false 0 0 [] 0 [0])) = some (.xfer 0x48 0) := by decide

/-- S1. -/
theorem test_readData_high_address_byte_first :
    lastEvent (exec (.readData 0x123456 4) (mid false 0 1 [] 0 [0])) = some (.xfer 0x12 0) := by decide

/-- V63: the fifth byte is the first data byte. -/
theorem test_fastRead_has_no_dummy_byte :
    lastEvent (exec (.fastRead 0x001000 4) (mid false 0 4 [] 0 [0xDE])) = some (.xfer 0x00 0xDE) := by decide

/-- V70: the command ends after four plus two bytes. -/
theorem test_pageProgram_ends_after_its_data :
    lastEvent (exec (.pageProgram 0x001000 [0xDE, 0xAD]) (mid false 1 6 [] 0 [])) = some (.csHigh) := by decide

/-- V76. -/
theorem test_sectorErase_sends_the_address_as_given :
    lastEvent (exec (.sectorErase 0x001234) (mid false 1 3 [] 0 [0])) = some (.xfer 0x34 0) := by decide

/-- V77. -/
theorem test_blockErase32k_opcode :
    lastEvent (exec (.blockErase32k 0x012345) (mid false 1 0 [] 0 [0])) = some (.xfer 0x52 0) := by decide

/-- V78. -/
theorem test_blockErase64k_opcode :
    lastEvent (exec (.blockErase64k 0x012345) (mid false 1 0 [] 0 [0])) = some (.xfer 0xD8 0) := by decide

/-- V79. -/
theorem test_blockErase_opcode_unchanged :
    lastEvent (exec (.blockErase 0x001000 0x20) (mid false 1 0 [] 0 [0])) = some (.xfer 0x20 0) := by decide

/-- V81: D1 after a busy read. -/
theorem test_chipErase_delays_after_a_busy_read :
    lastEvent (exec .chipErase (mid true 2 2 [0x03] 0x03 [])) = some (.dly 1) := by decide

/-- V20. -/
theorem test_writeEnable_sends_06 :
    lastEvent (exec .writeEnable (mid false 0 0 [] 0 [0x55])) = some (.xfer 0x06 0x55) := by decide

/-- V21. -/
theorem test_writeDisable_sends_04 :
    lastEvent (exec .writeDisable (mid false 0 0 [] 0 [0x55])) = some (.xfer 0x04 0x55) := by decide

/-- V22. -/
theorem test_volatileSrWriteEnable_sends_50 :
    lastEvent (exec .volatileSrWriteEnable (mid false 0 0 [] 0 [0x55])) = some (.xfer 0x50 0x55) := by decide

/-- V90: the latch bit included. -/
theorem test_readSr1_responds_with_the_whole_byte :
    lastEvent (exec .readSr1 (mid true 1 0 [0x1E] 0x1E [])) = some (.rsp [0x1E]) := by decide

/-- V91. -/
theorem test_readSr2_responds_with_the_reply :
    lastEvent (exec .readSr2 (mid true 1 0 [0x02] 0 [])) = some (.rsp [0x02]) := by decide

/-- V92. -/
theorem test_readSr3_responds_with_the_reply :
    lastEvent (exec .readSr3 (mid true 1 0 [0x60] 0 [])) = some (.rsp [0x60]) := by decide

/-- V93: the second transaction is a status read. -/
theorem test_writeSr1_polls_before_it_writes :
    lastEvent (exec (.writeSr1 0x1C) (mid false 1 0 [] 0 [0])) = some (.xfer 0x05 0) := by decide

/-- V93: the third is the last. -/
theorem test_writeSr1_responds_with_no_poll_after :
    lastEvent (exec (.writeSr1 0x1C) (mid true 3 0 [] 0x02 [])) = some (.rsp []) := by decide

/-- V94, S5: all eight bits are sent. -/
theorem test_writeSr2_value_unmasked :
    lastEvent (exec (.writeSr2 0xFF) (mid false 2 1 [] 0x02 [0])) = some (.xfer 0xFF 0) := by decide

/-- V95. -/
theorem test_writeSr3_opcode :
    lastEvent (exec (.writeSr3 0x60) (mid false 2 0 [] 0x02 [0])) = some (.xfer 0x11 0) := by decide

/-- V110. -/
theorem test_globalLock_sends_7E :
    lastEvent (exec .globalLock (mid false 0 0 [] 0 [0])) = some (.xfer 0x7E 0) := by decide

/-- V111. -/
theorem test_globalUnlock_sends_98 :
    lastEvent (exec .globalUnlock (mid false 0 0 [] 0 [0])) = some (.xfer 0x98 0) := by decide

/-- V112. -/
theorem test_powerDown_sends_B9 :
    lastEvent (exec .powerDown (mid false 0 0 [] 0 [0])) = some (.xfer 0xB9 0) := by decide

/-- V113. -/
theorem test_releasePowerDown_ends_after_one_byte :
    lastEvent (exec .releasePowerDown (mid false 0 1 [] 0 [])) = some (.csHigh) := by decide

/-- V114. -/
theorem test_releasePowerDownId_goes_on_after_one_byte :
    lastEvent (exec .releasePowerDownId (mid false 0 1 [] 0 [0xFF])) = some (.xfer 0x00 0xFF) := by decide

/-- V115. -/
theorem test_enableReset_sends_66 :
    lastEvent (exec .enableReset (mid false 0 0 [] 0 [0])) = some (.xfer 0x66 0) := by decide

/-- V116. -/
theorem test_resetDevice_sends_99 :
    lastEvent (exec .resetDevice (mid false 0 0 [] 0 [0])) = some (.xfer 0x99 0) := by decide

/-- S4: the second element is the delay. -/
theorem test_reset_delays_between :
    lastEvent (exec .reset (mid true 1 0 [] 0 [])) = some (.dly 1) := by decide

/-- S4. -/
theorem test_reset_sends_99_last :
    lastEvent (exec .reset (mid false 2 0 [] 0 [0])) = some (.xfer 0x99 0) := by decide

/-- 41 R132, bit 0 alone. -/
theorem test_isBusy_ignores_the_other_bits :
    lastEvent (exec .isBusy (mid true 1 0 [0xFE] 0xFE [])) = some (.rsp [0x00]) := by decide

/-- V30. -/
theorem test_isWriteEnabled_is_bit_1 :
    lastEvent (exec .isWriteEnabled (mid true 1 0 [0x0B] 0x0B [])) = some (.rsp [0x01]) := by decide

/-- V28. -/
theorem test_blockProtectBits_right_aligned :
    lastEvent (exec .blockProtectBits (mid true 1 0 [0x10] 0x10 [])) = some (.rsp [0x04]) := by decide

/-- V31. -/
theorem test_blockProtectBits_upper_bits_do_not_leak :
    lastEvent (exec .blockProtectBits (mid true 1 0 [0xE0] 0xE0 [])) = some (.rsp [0x00]) := by decide

/-- V36 to V38: bit 0 clear ends the loop at once, whatever the other bits; bit 0 set does not. -/
theorem test_waitIdle_only_bit_0_counts :
    (nextOf (exec .waitIdle (mid false 0 2 [0xFE] 0 []))).map (fun t => (t.upc, t.cnt, t.st)) = some (1, 0, 0xFE) ∧
    (nextOf (exec .waitIdle (mid false 0 2 [0x01] 0 []))).map (fun t => (t.upc, t.cnt, t.st)) = some (0, 2, 0x01) := by
  decide

/-- V35: no delay when the first read finds idle. -/
theorem test_waitIdle_responds_after_an_idle_read :
    lastEvent (exec .waitIdle (mid true 1 0 [0x00] 0x00 [])) = some (.rsp []) := by decide

/-! ## Acceptance, reset, an environment without answers -/

/-- V130: with no request nothing happens. -/
theorem test_reset_waits : (nextOf (step State.reset)).map (fun t => (t.trace, t.csN, t.ready)) = some ([], true, true) := by
  decide

/-- V134: a request presented in RUN waits. -/
theorem test_running_block_accepts_nothing :
    (nextOf (step { start [] with req := requestOf .jedecId, reqIn := [requestOf .reset] })).map
      (fun t => (t.req.op, t.reqIn.length, t.trace)) = some (.jedecId, 1, [.csLow]) := by decide

/-- V131: `rst` inside a transaction adds CS+ and nothing else, and the block is idle. -/
theorem test_rst_inside_a_transaction :
    (nextOf (step { mid false 0 3 [] 0 [] with rst := [true] })).map (fun t => (t.trace, t.ready, t.cnt)) =
      some ([.csHigh], true, 0) := by decide

/-- V132: `rst` in a delay adds no event. -/
theorem test_rst_in_a_delay :
    (nextOf (step { mid true 2 2 [0x01] 0x01 [] with rst := [true] })).map (fun t => (t.trace, t.ready)) =
      some ([], true) := by decide

/-- 00 R7: with PUBLIC_ONLY the channel would refuse an internal operation and no other. -/
theorem test_public_only :
    nextOf (idleStep true { State.reset with reqIn := [requestOf .resetDevice] }) = none ∧
    ((nextOf (idleStep true { State.reset with reqIn := [requestOf .reset] })).map fun t => t.seq) = some .run := by decide

/-- V99: the other order of the register-write path. -/
theorem test_other_order_of_the_write_path :
    writeSrPath .pollWeWrite (commandTxn cmdWriteSr1 0 0 [0x1C]) =
      [.waitIdle, .txn ⟨0x06, none, .none⟩, .txn ⟨0x01, none, .write [0x1C]⟩] := by decide

/-! ## The chip that keeps the contract: what one command or one exchange does to it -/

/-- V71: the data wrap within the 256-byte page; onto the blank sector they are the bytes. -/
theorem test_chip_program_wraps_in_its_page :
    (receive (.pageProgram 0x0020FE [0x11, 0x22, 0x33]) chip).flash =
      [(0x1000, 0xDE), (0x1001, 0xAD), (0x2000, 0x33), (0x20FE, 0x11), (0x20FF, 0x22)] ∧
    (receive (.pageProgram 0x0020FE [0x11, 0x22, 0x33]) chip).busy = .is true := by decide

/-- 93 U9: onto a byte not known to be erased the result is any value. -/
theorem test_chip_program_over_data_is_open :
    (receive (.pageProgram 0x001001 [0x0F]) chip).flash = [(0x1000, 0xDE)] := by decide

/-- 93 U10: with a protect bit set whether a program is carried out and what becomes of the latch is any value, and no
more than that. -/
theorem test_chip_program_while_protected_is_open :
    receive (.pageProgram 0x002000 [0x0F]) { chip with bp := .is 7 } =
      { chip with wel := .any, busy := .any, bp := .is 7, armed := .is false, blank := [(0x2001, 0x3000)] } := by decide

/-- 60 R234: a command that is garbled or comes too early does not put the chip to sleep, unless it begins as POWER_DOWN. -/
theorem test_chip_only_power_down_sleeps :
    (receive .writeEnable { chip with busy := .is true }).asleep = .is false ∧
    (chipCut { chip with rx := [0x20, 0x00] }).asleep = .is false ∧
    (chipCut { chip with rx := [0xB9] }).asleep = .any := by decide

/-- V76: the sector that contains the address. -/
theorem test_chip_erases_the_aligned_sector :
    (receive (.sectorErase 0x001234) chip).flash = [] ∧
    (receive (.sectorErase 0x001234) chip).blank = [(0x1000, 0x2000), (0x2000, 0x3000)] := by decide

/-- V83: with the latch clear a mutating command does nothing, but that it disarms the reset. -/
theorem test_chip_ignores_an_erase_without_the_latch :
    receive .chipErase { chip with wel := .is false } = { chip with wel := .is false, armed := .is false } := by decide

/-- V60: the reply to the first data byte of a read is the byte at the address. -/
theorem test_chip_serves_the_array : (chipReply 0x00 { chip with rx := [0x03, 0x00, 0x10, 0x01] }).1 = 0xAD := by decide

/-- S6: the second JEDEC byte. -/
theorem test_chip_serves_its_identification : (chipReply 0x00 { chip with rx := [0x9F, 0x00] }).1 = 0x40 := by decide

/-- V117: an armed reset clears the latch and leaves the array. -/
theorem test_chip_reset_when_armed :
    (receive .resetDevice chip).wel = .is false ∧ (receive .resetDevice chip).flash = chip.flash := by decide

/-- V118: a status read disarms the reset; the transaction is told by its bytes. -/
theorem test_chip_status_read_disarms : (chipDeselect { chip with rx := [0x05, 0x00] }).armed = .is false := by decide

/-- 93 U6, U8: bytes that are no command, and a transaction cut short, leave any value. -/
theorem test_chip_takes_no_half_command :
    (chipDeselect { chip with rx := [0x20, 0x00] }).wel = .any ∧ (chipCut { chip with rx := [0x20, 0x00] }).wel = .any := by
  decide

/-- 20 R64: a status read that finds the cycle over shows the latch cleared. -/
theorem test_chip_completed_cycle_clears_the_latch :
    chipReply 0xE2 { chip with rx := [0x05], busy := .is true } =
      (0xE0, { chip with rx := [0x05], busy := .is false, wel := .is false }) := by decide

/-- 60 R234, 91 N12: what survives power-down, and whether a woken chip is ready, is any value. -/
theorem test_chip_power_down_forgets :
    cellAt (receive .powerDown chip).flash 0x1000 = .any ∧ (receive .powerDown chip).asleep = .is true ∧
    chipReady (receive .releasePowerDown (receive .powerDown chip)) = false := by decide

/-- 20 R72: only a release wakes a sleeping chip. -/
theorem test_chip_sleeps_until_released :
    (receive .writeEnable { chip with asleep := .is true }).asleep = .is true ∧
    (receive .releasePowerDown { chip with asleep := .is true }).asleep = .is false := by decide

/-! ## Witnesses: for every statement with hypotheses, concrete values that meet all of them -/

/-- `AddressPhaseIsThreeBytesHighFirst`, second clause, at the last byte before the data phase. -/
theorem witness_addressPhase : 3 < (headerBytes (commandTxn cmdReadData 0x123456 4 [])).length := by decide

theorem witness_decodingAnEncodedCommand_listed :
    (Instr.pageProgram 0xFFFFFF [0xFF]).wellFormed = true ∧
    encode (.pageProgram 0xFFFFFF [0xFF]) = some [0x02, 0xFF, 0xFF, 0xFF, 0xFF] ∧
    ∀ addr bop, Instr.pageProgram 0xFFFFFF [0xFF] = .blockErase addr bop → isListedOpcode bop = false :=
  ⟨by decide, by decide, fun _ _ h => by cases h⟩

theorem witness_decodingAnEncodedCommand_unlisted :
    (Instr.blockErase 0x123456 0x00).wellFormed = true ∧
    encode (.blockErase 0x123456 0x00) = some [0x00, 0x12, 0x34, 0x56] ∧
    ∀ addr bop, Instr.blockErase 0x123456 0x00 = .blockErase addr bop → isListedOpcode bop = false :=
  ⟨by decide, by decide, fun _ _ h => by cases h; decide⟩

theorem witness_encodingADecodedTransaction : decode [0x03, 0xFF, 0xFF, 0xFF, 0x00] = .ok (.readData 0xFFFFFF 1) := by
  decide

theorem witness_unlistedFirstByte :
    isListedOpcode 0xFF = false ∧ decode [0xFF, 0x00, 0x10, 0x00] = .ok (.blockErase 0x001000 0xFF) := by decide

theorem witness_stepRunsTheLatchedInstruction :
    (start []).rst.headD false = false ∧ (start []).seq = .run ∧
    { start [] with rst := [false, true] }.rst.headD false = false := by decide

theorem witness_placedInstruction :
    decodeTableWord 32 0x00100020 = some (.sectorErase 0x001000) ∧ (Instr.sectorErase 0x001000).wellFormed = true := by
  decide

theorem witness_idleBlock :
    State.reset.rst.headD false = false ∧ State.reset.seq = .idle ∧ State.reset.reqIn = [] ∧
    { State.reset with reqIn := [requestOf .waitIdle] }.seq = .idle := by decide

/-- Two requests that differ in every field WRITE_SR1 does not read. -/
theorem witness_unreadRequestFields :
    let r : Request := ⟨.writeSr1, 0, 0, [], 0, 0x1C⟩
    let q : Request := ⟨.writeSr1, 1, 2, [3], 4, 0x1C⟩
    r ≠ q ∧ r.op = q.op ∧ (r.op ∈ [.readData, .fastRead, .pageProgram, .sectorErase, .blockErase] → r.addr = q.addr) ∧
    (r.op ∈ [.readData, .fastRead] → r.len = q.len) ∧ (r.op = .pageProgram → r.wdata = q.wdata) ∧
    (r.op = .blockErase → r.bop = q.bop) ∧
    (r.op ∈ [.writeSr1, .writeSr2, .writeSr3] → r.wval = q.wval) := by decide

theorem witness_everyInstructionCanBeRequested : (Instr.blockErase 0xFFFFFF 0xD9).wellFormed = true := by decide

theorem witness_publicOnly :
    { State.reset with reqIn := [requestOf .enableReset] }.reqIn = requestOf .enableReset :: [] ∧
    (requestOf .enableReset).op ∈ [Op.writeEnable, .writeDisable, .volatileSrWriteEnable, .enableReset, .resetDevice] ∧
    (requestOf .reset).op ∉ [Op.writeEnable, .writeDisable, .volatileSrWriteEnable, .enableReset, .resetDevice] := by
  decide

/-- `BlockResetAbandonsTheOperation`, with chip-select low and with it high. -/
theorem witness_blockReset :
    { mid false 1 3 [] 0 [] with rst := [true] }.rst.headD false = true ∧
    { mid true 2 2 [1] 1 [] with rst := [true] }.rst.headD false = true := by decide

/-- The premise `AtStart` of the statements about whole operations. -/
theorem start_atStart (replies : List Byte) : (start replies).AtStart := ⟨rfl, rfl, rfl⟩

/-- `StepInsideATransactionExchangesOneByte`, at the last address byte and at the first data byte of a read, and in a poll. -/
theorem witness_stepInsideATransaction :
    (expansionOf (.readData 0x123456 1))[0]? = some (.txn (commandTxn cmdReadData 0x123456 1 [])) ∧
    elemTxn (.txn (commandTxn cmdReadData 0x123456 1 [])) = some (commandTxn cmdReadData 0x123456 1 []) ∧
    (mid false 0 3 [] 0 []).csN = false ∧ (outBytes (commandTxn cmdReadData 0x123456 1 []))[3]? = some 0x56 ∧
    (outBytes (commandTxn cmdReadData 0x123456 1 []))[4]? = some 0x00 ∧
    (expansionOf .chipErase)[2]? = some .waitIdle ∧ elemTxn .waitIdle = some statusTxn ∧
    (outBytes statusTxn)[1]? = some 0x00 := by decide

theorem witness_transactionEnds :
    (expansionOf .reset)[2]? = some (.txn (plainTxn cmdResetDevice)) ∧ (mid false 2 1 [] 0 []).csN = false ∧
    (outBytes (plainTxn cmdResetDevice)).length ≤ 1 := by decide

theorem witness_everyInstructionEnds :
    (mid true 1 0 [] 0 []).upc = (expansionOf .isBusy).length ∧
    (mid true 3 0 [] 0 []).upc = (expansionOf .chipErase).length := by decide

/-- `PollEndsOnlyOnAnIdleRead`: the loop going on and the loop ending. -/
theorem witness_pollEnds :
    (expansionOf .waitIdle)[0]? = some .waitIdle ∧
    (nextOf (exec .waitIdle (mid false 0 2 [1] 0 []))).isSome = true ∧
    (nextOf (exec .waitIdle (mid false 0 2 [0] 0 []))).isSome = true := by decide

theorem witness_instructionStep : ∃ t, exec .globalLock (start []) = .next t := ⟨_, rfl⟩

/-- `OnlyStatusReadsWriteTheSnapshot`: the write-enable element of a program, a read, a register read. -/
theorem witness_onlyStatusReads_element :
    (∃ t, exec .chipErase (mid false 0 1 [] 0 []) = .next t) ∧
    (expansionOf .chipErase)[0]? ∉ [some .readStatus1, some .waitIdle] := ⟨⟨_, rfl⟩, by decide⟩

theorem witness_onlyStatusReads :
    (∃ t, exec .readSr2 (mid false 0 2 [0xFF] 0 []) = .next t) ∧
    (∃ t, exec (.fastRead 0 1) (mid false 0 5 [0xFF] 0 []) = .next t) ∧
    Instr.readSr2 ∈ [.mfrDeviceId, .jedecId, .uniqueId, .writeEnable, .writeDisable, .volatileSrWriteEnable, .readSr2,
      .readSr3, .globalLock, .globalUnlock, .powerDown, .releasePowerDown, .releasePowerDownId, .enableReset,
      .resetDevice, .reset] := ⟨⟨_, rfl⟩, ⟨_, rfl⟩, by decide⟩

/-- A state of the invariant at the last step of a transaction: `i` is latched, its element at `upc` is over but for CS+. -/
def closing (i : Instr) (upc : Nat) (rx rbuf : List Byte) : State :=
  { onChip false upc rx.length rbuf { chip with rx := rx } [] with req := requestOf i, trace := [.csLow] }

theorem running_inv {s : State} (hb : busLevel s.trace = some s.csN) (hs : s.seq = .run)
    (hp : runPosition (expansionOf (requestInstr s.req)) s = true) (hm : chipMemoryOk s.env.chip = true) : s.Inv :=
  And.intro hb (And.intro (fun h => by rw [hs] at h; cases h) (And.intro (fun _ => hp) hm))

/-- `InstructionsThatDoNotStoreLeaveTheArray`, for a write of a status register. -/
theorem witness_doNotStore_writeSr1 :
    let s := closing (.writeSr1 0x1C) 2 [0x01, 0x1C] []
    s.Inv ∧ s.seq = .run ∧ requestInstr s.req = .writeSr1 0x1C ∧ (∃ t, exec (.writeSr1 0x1C) s = .next t) ∧
    s.env.contract = true ∧ chipReady s.env.chip = true ∧
    (Instr.writeSr1 0x1C = .resetDevice ∨ (Instr.writeSr1 0x1C = .reset ∧ s.upc = 2) → s.env.chip.armed = .is true) ∧
    (∀ addr wdata, Instr.writeSr1 0x1C ≠ .pageProgram addr wdata) ∧ (∀ addr, Instr.writeSr1 0x1C ≠ .sectorErase addr) ∧
    (∀ addr, Instr.writeSr1 0x1C ≠ .blockErase32k addr) ∧ (∀ addr, Instr.writeSr1 0x1C ≠ .blockErase64k addr) ∧
    (∀ addr bop, Instr.writeSr1 0x1C ≠ .blockErase addr bop) ∧ Instr.writeSr1 0x1C ≠ .chipErase ∧
    Instr.writeSr1 0x1C ≠ .powerDown :=
  ⟨running_inv rfl rfl (by decide) (by decide), rfl, rfl, ⟨_, rfl⟩, rfl, by decide, fun _ => rfl,
   nofun, nofun, nofun, nofun, nofun, nofun, nofun⟩

/-- The same for RESET_DEVICE with the reset armed (the premises on the instruction alone hold as above). -/
theorem witness_doNotStore_resetDevice :
    let s := closing .resetDevice 0 [0x99] []
    s.Inv ∧ s.seq = .run ∧ requestInstr s.req = .resetDevice ∧ (∃ t, exec .resetDevice s = .next t) ∧
    s.env.contract = true ∧ chipReady s.env.chip = true ∧ s.env.chip.armed = .is true :=
  ⟨running_inv rfl rfl (by decide) (by decide), rfl, rfl, ⟨_, rfl⟩, rfl, by decide, by decide⟩

/-- The same for a read, at the end of its address phase. -/
theorem witness_doNotStore_readData :
    let s := closing (.readData 0x001000 0) 0 [0x03, 0x00, 0x10, 0x00] []
    s.Inv ∧ s.seq = .run ∧ requestInstr s.req = .readData 0x001000 0 ∧
    (∃ t, exec (.readData 0x001000 0) s = .next t) ∧ s.env.contract = true ∧ chipReady s.env.chip = true :=
  ⟨running_inv rfl rfl (by decide) (by decide), rfl, rfl, ⟨_, rfl⟩, rfl, by decide⟩

/-- `ReadsAndPollsLeaveTheArray`: a read of a sleeping chip, and the poll of an erase at a busy one. -/
theorem witness_readsAndPolls :
    let s : State := { closing .jedecId 0 [0x9F, 0, 0, 0] [1, 2, 3] with
      env := ⟨[], 0, true, { chip with rx := [0x9F, 0, 0, 0], asleep := .is true }⟩ }
    let u : State := { closing .chipErase 2 [0x05, 0x00] [0x03] with
      env := ⟨[], 0, true, { chip with rx := [0x05, 0x00], busy := .is true }⟩ }
    s.Inv ∧ s.seq = .run ∧ requestInstr s.req = .jedecId ∧ (∃ t, exec .jedecId s = .next t) ∧
    u.Inv ∧ u.seq = .run ∧ requestInstr u.req = .chipErase ∧ (∃ t, exec .chipErase u = .next t) ∧
    (expansionOf .chipErase)[u.upc]? = some .waitIdle :=
  ⟨running_inv rfl rfl (by decide) (by decide), rfl, rfl, ⟨_, rfl⟩,
   running_inv rfl rfl (by decide) (by decide), rfl, rfl, ⟨_, rfl⟩, rfl⟩

theorem witness_transactionFollows :
    (expansionOf (.writeSr1 0x1C))[2]? = some (.txn ⟨0x01, none, .write [0x1C]⟩) ∧ (mid true 2 0 [] 0 []).csN = true ∧
    (expansionOf (.readData 0 0))[0]? = some (.txn ⟨0x03, some 0, .read 0⟩) ∧
    (expansionOf .reset)[0]? = some (.txn ⟨0x66, none, .none⟩) := by decide

/-- `EveryOperationRunsToItsResponse` and `OperationWorkIsAsCounted`: S2's chip, busy for one read after the program (any replies to the other bytes). -/
theorem witness_everyOperation :
    (start [0, 0, 0, 0, 0, 0, 0, 0x03, 0, 0x00]).AtStart ∧
    pollsEnd 1 (expansionOf (.pageProgram 0x000100 [0xAA])) (start [0, 0, 0, 0, 0, 0, 0, 0x03, 0, 0x00]) = true ∧
    pollsEnd 0 (expansionOf .jedecId) (start []) = true := ⟨start_atStart _, by decide, by decide⟩

theorem witness_singleByteOperations :
    (Instr.powerDown, (0xB9 : Byte)) ∈ [(.writeEnable, 0x06), (.writeDisable, 0x04), (.volatileSrWriteEnable, 0x50),
      (.globalLock, 0x7E), (.globalUnlock, 0x98), (.powerDown, 0xB9), (.releasePowerDown, 0xAB), (.enableReset, 0x66),
      ((.resetDevice, 0x99) : Instr × Byte)] ∧ (start []).AtStart :=
  ⟨by decide, start_atStart _⟩

theorem witness_identify :
    (Instr.jedecId, (0x9F : Byte), 3) ∈ [(.mfrDeviceId, 0x90, 5), (.jedecId, 0x9F, 3), (.uniqueId, 0x48, 5),
      ((.releasePowerDownId, 0xAB, 4) : Instr × Byte × Nat)] ∧
    (start [0, 0xEF, 0x40, 0x16]).AtStart := ⟨by decide, start_atStart _⟩

theorem witness_reads :
    (Instr.fastRead 0xFFFFFF 0, (0x0B : Byte)) ∈ [(Instr.readData 0xFFFFFF 0, (0x03 : Byte)), (.fastRead 0xFFFFFF 0, 0x0B)] ∧
    (start []).AtStart := ⟨by decide, start_atStart _⟩

theorem witness_readSr2AndSr3 :
    (Instr.readSr3, (0x15 : Byte)) ∈ [(Instr.readSr2, (0x35 : Byte)), (.readSr3, 0x15)] ∧ (start [0, 0x60]).AtStart :=
  ⟨by decide, start_atStart _⟩

/-- `StatusQueriesAnswerFromAFreshRead` and `ResetSends66DelaySends99` ask for `AtStart` alone. -/
theorem witness_statusQueries : (start [0, 0x1E]).AtStart := start_atStart _

/-- `WaitIdlePollsUntilIdle`: V35 with no busy read, V39 with three. -/
theorem witness_waitIdle :
    idleAfter 0 (start [0, 0x00]).env = true ∧ idleAfter 3 (start [0, 3, 0, 3, 0, 3, 0, 0]).env = true ∧
    (start [0, 0x00]).AtStart := ⟨by decide, by decide, start_atStart _⟩

/-- `ProgramAndEraseFollowTheSkeleton`: S7 with one busy read. -/
theorem witness_programAndErase :
    (Instr.blockErase32k 0x010000, [(0x52 : Byte), 0x01, 0x00, 0x00]) ∈
      [(.pageProgram 0x010000 [], [0x02, 0x01, 0x00, 0x00]), (.sectorErase 0x010000, [0x20, 0x01, 0x00, 0x00]),
       ((.blockErase32k 0x010000, [0x52, 0x01, 0x00, 0x00]) : Instr × List Byte)] ∧
    idleAfter 1 (busTxn [0x52, 0x01, 0x00, 0x00] (busTxn [0x06] (start [0, 0, 0, 0, 0, 0, 3, 0, 0]).env).env).env = true ∧
    (start [0, 0, 0, 0, 0, 0, 3, 0, 0]).AtStart := ⟨by decide, by decide, start_atStart _⟩

/-- `StatusWritesPollBeforeAndNotAfter`: V96 with two busy reads. -/
theorem witness_statusWrites :
    (Instr.writeSr1 0x00, (0x01 : Byte)) ∈
      [(.writeSr1 0x00, 0x01), (.writeSr2 0x00, 0x31), ((.writeSr3 0x00, 0x11) : Instr × Byte)] ∧
    idleAfter 2 (busTxn [0x06] (start [0, 0, 1, 0, 1, 0, 2]).env).env = true ∧
    (start [0, 0, 1, 0, 1, 0, 2]).AtStart := ⟨by decide, by decide, start_atStart _⟩

/-- `BusyChipKeepsTheOperationPolling`: V41 for three reads. -/
theorem witness_busyChip :
    (expansionOf .waitIdle)[0]? = some .waitIdle ∧ (start [0, 1, 0, 1, 0, 1]).csN = true ∧
    (start [0, 1, 0, 1, 0, 1]).cnt = 0 ∧ busyFor 3 (start [0, 1, 0, 1, 0, 1]).env = true ∧ 15 ≤ 5 * 3 := by decide

/-- `EveryStepKeepsTheInvariant` inside a transaction, and at a delay of the polling loop. -/
theorem witness_invariant :
    (closing .jedecId 0 [0x9F, 0x00] [0xEF]).Inv ∧
    ({ mid true 2 2 [0x03] 0x03 [] with req := requestOf .chipErase } : State).Inv ∧
    (∃ t, step (closing .jedecId 0 [0x9F, 0x00] [0xEF]) = .next t) :=
  ⟨running_inv rfl rfl (by decide) (by decide),
   running_inv rfl rfl (by decide) (by decide), ⟨_, rfl⟩⟩

theorem witness_traceOnlyGrows : ∃ t, step State.reset = .next t := ⟨_, rfl⟩

theorem witness_withoutAContract : State.reset.env.contract = false ∧ (start [0x12]).env.contract = false := by decide

/-- A chip that keeps the contract, from the start of an operation. -/
def chipStart (c : Chip) (replies : List Byte) : State := onChip true 0 0 [] c replies

theorem chipStart_atStart (c : Chip) (replies : List Byte) : (chipStart c replies).AtStart := ⟨rfl, rfl, rfl⟩

/-- `WriteEnableSetsAndWriteDisableClearsTheLatch`, `StatusWritesStartACycle`,
`VolatileSrWriteEnablePermitsAVolatileWrite`, `ResetClearsTheLatch`, `EnableResetArmsAndOnlyItDoes`, the first clause of
`PowerDownSleepsAndReleaseWakes`, `ReadsReturnTheArrayBytes`, `JedecIdReturnsTheChipsIdentification` and
`LockSetsAndUnlockClearsTheProtectBits`. -/
theorem witness_readyChip :
    (chipStart chip []).AtStart ∧ (chipStart chip []).env.contract = true ∧
    chipReady (chipStart chip []).env.chip = true ∧ (chipStart chip []).env.chip.wel = .is true ∧
    (chipStart chip []).env.chip.armed = .is true ∧ (chipStart chip []).env.chip.jedec = .is (0xEF, 0x40, 0x16) ∧
    cellAt (chipStart chip []).env.chip.flash 0x1000 = .is 0xDE ∧ 0x1000 < (chipStart chip []).env.chip.size :=
  ⟨chipStart_atStart _ _, rfl, by decide, rfl, rfl, rfl, by decide, by decide⟩

/-- `StatusWritesStartACycle`, the operand; `EnableResetArmsAndOnlyItDoes`, its last clause. -/
theorem witness_cycleAndArming :
    Instr.writeSr3 0x60 ∈ [.writeSr1 0x60, .writeSr2 0x60, .writeSr3 0x60] ∧
    (chipDeselect { chip with rx := [0x66], armed := .is false }).armed = .is true := by decide

/-- The other clauses of `PowerDownSleepsAndReleaseWakes`. -/
theorem witness_sleepingChip :
    (chipStart { chip with asleep := .is true } []).AtStart ∧
    (chipStart { chip with asleep := .is true } []).env.contract = true ∧
    (chipStart { chip with asleep := .is true } []).env.chip.asleep = .is true ∧
    (Instr.releasePowerDownId, 8) ∈ [(Instr.releasePowerDown, 4), (.releasePowerDownId, 8)] ∧
    Instr.writeEnable ≠ .releasePowerDown ∧ Instr.writeEnable ≠ .releasePowerDownId :=
  ⟨chipStart_atStart _ _, rfl, rfl, by decide, by decide, by decide⟩

/-- `PageProgramStoresItsBytes`: three bytes from the last but one of a page, the third of which wraps (V71), one busy read;
the caller's duties and the blank locations of two bytes that do not wrap. -/
theorem witness_pageProgram :
    let s := chipStart chip [0, 0, 0, 0, 0, 0, 0, 0, 0, 1, 0, 0]
    s.AtStart ∧ s.env.contract = true ∧ chipReady s.env.chip = true ∧ s.env.chip.bp = .is 0 ∧
    (0x0020FE : Addr).toNat - (0x0020FE : Addr).toNat % 256 + 256 ≤ s.env.chip.size ∧
    pollsEnd 1 (expansionOf (.pageProgram 0x0020FE [0x11, 0x22, 0x33])) s = true ∧
    isBlank s.env.chip 0x2000 = true ∧ isBlank s.env.chip 0x20FF = true ∧
    callerDuty s.env.chip.size (.pageProgram 0x0020FE [0x11, 0x22]) = true ∧
    pollsEnd 0 (expansionOf (.pageProgram 0x0020FE [0x11, 0x22])) s = true :=
  ⟨chipStart_atStart _ _, rfl, by decide, rfl, by decide, by decide, by decide, by decide, by decide, by decide⟩

/-- `ErasesBlankExactlyTheAlignedRegion`: V78 at the top of the chip, idle at the first read. -/
theorem witness_erases :
    let s := chipStart chip [0, 0, 0, 0, 0, 0, 0]
    s.AtStart ∧ s.env.contract = true ∧ chipReady s.env.chip = true ∧ s.env.chip.bp = .is 0 ∧
    (0x3FFFFF : Addr).toNat - (0x3FFFFF : Addr).toNat % 65536 + 65536 ≤ s.env.chip.size ∧
    pollsEnd 0 (expansionOf (.blockErase64k 0x3FFFFF)) s = true :=
  ⟨chipStart_atStart _ _, rfl, by decide, rfl, by decide, by decide⟩

/-- `ChipEraseBlanksTheWholeArray`: V81 with two busy reads. -/
theorem witness_chipErase :
    let s := chipStart chip [0, 0, 0, 1, 0, 1, 0, 0]
    s.AtStart ∧ s.env.contract = true ∧ chipReady s.env.chip = true ∧ s.env.chip.bp = .is 0 ∧
    pollsEnd 2 (expansionOf .chipErase) s = true := ⟨chipStart_atStart _ _, rfl, by decide, rfl, by decide⟩

/-- `ProgramsAndErasesStayInTheirRegion` on a chip with its protect bits set: a program at the end of a page and an erase of
the last sector, each at once idle. -/
theorem witness_stayInTheirRegion :
    let s := chipStart { chip with bp := .is 7 } [0, 0, 0, 0, 0, 0, 0, 0]
    s.AtStart ∧ s.env.contract = true ∧ chipReady s.env.chip = true ∧
    (0x0020FF : Addr).toNat - (0x0020FF : Addr).toNat % 256 + 256 ≤ s.env.chip.size ∧
    pollsEnd 0 (expansionOf (.pageProgram 0x0020FF [0x11])) s = true ∧
    (0x3FFFFF : Addr).toNat - (0x3FFFFF : Addr).toNat % 4096 + 4096 ≤ s.env.chip.size ∧
    pollsEnd 0 (expansionOf (.sectorErase 0x3FFFFF)) s = true :=
  ⟨chipStart_atStart _ _, rfl, by decide, by decide, by decide, by decide, by decide⟩

/-- `PollAfterOperationsLeaveTheChipIdle` on a chip that is awake and of which nothing else is known, with one busy read:
a sector beyond the chip, an opcode of no row, the two opcodes next to the one left out and that of the releases. -/
theorem witness_pollAfter :
    let s := chipStart { chipForget chip with asleep := .is false } [0, 0, 0, 0, 0, 0, 1, 0, 0]
    s.AtStart ∧ s.env.contract = true ∧ s.env.chip.asleep = .is false ∧
    pollsEnd 1 (expansionOf (.sectorErase 0xFFFFFF)) s = true ∧
    pollsEnd 1 (expansionOf (.blockErase 0x001000 0x00)) s = true ∧
    pollsEnd 1 (expansionOf (.blockErase 0x001000 0xB8)) s = true ∧
    pollsEnd 1 (expansionOf (.blockErase 0x001000 0xBA)) s = true ∧
    pollsEnd 1 (expansionOf (.blockErase 0x001000 0xAB)) s = true :=
  ⟨chipStart_atStart _ _, rfl, rfl, by decide, by decide, by decide, by decide, by decide⟩

/-- `StatusReadShowsBusyLatchAndProtectBits`, with the chip idle and with a cycle in progress. -/
theorem witness_statusRead :
    let s := chipStart chip [0, 0]
    let u := chipStart { chip with busy := .is true } [0, 0]
    s.env.contract = true ∧ s.env.chip.asleep = .is false ∧ s.env.chip.wel = .is true ∧ s.env.chip.busy = .is false ∧
    u.env.chip.busy = .is true ∧ s.env.chip.bp = .is 0 ∧ s.AtStart ∧ u.AtStart :=
  ⟨rfl, rfl, rfl, rfl, rfl, rfl, chipStart_atStart _ _, chipStart_atStart _ _⟩

theorem witness_withoutTheLatch :
    chipReady { chip with wel := .is false } = true ∧ { chip with wel := .is false }.wel = .is false ∧
    { chip with wel := .is false }.volatileArmed = .is false := by decide

end Sys2Proof.Tests
end

section
/-! PROOFS. A whole transaction, said once for every element that sends one (40 R114 to R119). -/

namespace Sys2Proof.Machine

/-- Of the replies `ins` to the bytes of `t` from byte `k` on, those that are collected (40 R115 to R117). -/
def collectedFrom (t : Txn) (k : Nat) (ins : List Byte) : List Byte :=
  match t.data with
  | .read _ => ins.drop ((headerBytes t).length - k)
  | .none => []
  | .write _ => []

/-- What happens after the CS+ of the transaction of an element (10 R26; 41 R131, R138). -/
def elemFinish : Elem → State → State
  | .txn _, s => advance s
  | .readStatus1, s => advance (takeStatus s)
  | .waitIdle, s => afterPoll s
  | .delay _, s => s

/-- The state after the exchange of `outs`, the bytes of `t` from byte `cnt` on. -/
def exchanged (t : Txn) (outs : List Byte) (s : State) : State :=
  { s with
    cnt := s.cnt + outs.length
    rbuf := s.rbuf ++ collectedFrom t s.cnt (exchangeAll outs s.env).1
    trace := s.trace ++ List.zipWith .xfer outs (exchangeAll outs s.env).1
    env := (exchangeAll outs s.env).2 }

/-! ## The replies collected -/

@[simp] theorem collectedFrom_nil (t : Txn) (k : Nat) : collectedFrom t k [] = [] := by
  unfold collectedFrom; split <;> simp

theorem collectedFrom_zero (t : Txn) (ins : List Byte) : collectedFrom t 0 ins = txnResult t ins := rfl

/-- The first reply is collected exactly if `collects` says so, and comes first. -/
theorem collectedFrom_cons (t : Txn) (k : Nat) (r : Byte) (ins : List Byte) :
    collectedFrom t k (r :: ins) = (if collects t k then [r] else []) ++ collectedFrom t (k + 1) ins := by
  rcases t with ⟨opc, addr, data⟩
  cases data with
  | none => simp [collectedFrom, collects]
  | write bytes => simp [collectedFrom, collects]
  | read n =>
    simp only [collectedFrom, collects, decide_eq_true_eq]
    split
    next h => simp [Nat.sub_eq_zero_of_le h, Nat.sub_eq_zero_of_le (Nat.le_succ_of_le h)]
    next h =>
      obtain ⟨d, hd⟩ : ∃ d, (headerBytes ⟨opc, addr, .read n⟩).length = k + 1 + d :=
        Nat.exists_eq_add_of_le (by omega)
      simp [hd, show k + 1 + d - k = d + 1 by omega]

/-! ## The exchanges of a transaction -/

@[simp] theorem exchanged_nil (t : Txn) (s : State) : exchanged t [] s = s := by simp [exchanged, exchangeAll]

theorem exchanged_cons (t : Txn) (out : Byte) (rest : List Byte) (s : State) :
    exchanged t (out :: rest) s = exchanged t rest (xfer out (collects t s.cnt) s) := by
  cases hc : collects t s.cnt <;>
    simp [exchanged, exchangeAll, collectedFrom_cons, hc, xfer, emit, ← Nat.add_assoc, Nat.add_right_comm]

/-- CS-, every byte, CS+ is the whole `Txn` (40 R114). -/
theorem csRelease_exchanged_csAssert (t : Txn) (s : State) :
    csRelease (exchanged t (outBytes t) (csAssert s)) = wholeTxn t s := by
  simp [exchanged, csAssert, csRelease, emit, wholeTxn, collectedFrom_zero, txnReplies, txnEvents, txnEnv]

theorem elemPrimitive_end {e : Elem} {t : Txn} (ht : elemTxn e = some t) {s : State} (hc : s.csN = false)
    (hb : (outBytes t)[s.cnt]? = none) : elemPrimitive e s = elemFinish e (csRelease s) := by
  cases e with
  | txn u => cases ht; exact txnPrimitive_end hc hb
  | readStatus1 => cases ht; rw [elemPrimitive]; exact txnPrimitive_end hc hb
  | waitIdle =>
    cases ht
    rw [elemPrimitive, if_neg (by simp [awaitsDelay, hc])]
    exact txnPrimitive_end hc hb
  | delay u => cases ht

/-- With chip-select low and the bytes `outs` still to send, one step per byte exchanges them all. -/
theorem execRun_exchanges {i : Instr} {e : Elem} {t : Txn} (ht : elemTxn e = some t) (outs : List Byte) {s : State}
    (he : (expansionOf i)[s.upc]? = some e) (hc : s.csN = false) (hd : (outBytes t).drop s.cnt = outs) :
    execRun i outs.length s = .next (exchanged t outs s) := by
  induction outs generalizing s with
  | nil => simp [execRun]
  | cons out rest ih =>
    have hb : (outBytes t)[s.cnt]? = some out := by rw [← List.head?_drop, hd, List.head?_cons]
    have hrest : (outBytes t).drop (s.cnt + 1) = rest := by rw [← List.tail_drop, hd, List.tail_cons]
    have hx : exec i s = .next (xfer out (collects t s.cnt) s) := by rw [exec_elem he, elemPrimitive_byte ht hc hb]
    rw [List.length_cons, execRun_succ hx, exchanged_cons]
    exact ih he hc hrest

/-- From chip-select high, the steps of a transaction make the whole `Txn`, and the element goes on as it does after it. -/
theorem execRun_txn {i : Instr} {e : Elem} {t : Txn} {s : State} (he : (expansionOf i)[s.upc]? = some e)
    (ht : elemTxn e = some t) (hc : s.csN = true) (hw : e = .waitIdle → awaitsDelay s = false) :
    execRun i (txnSteps t) s = .next (elemFinish e (wholeTxn t s)) := by
  have hlow : exec i s = .next (csAssert s) := by rw [exec_elem he, elemPrimitive_start ht hc hw]
  have hbytes : execRun i (outBytes t).length (csAssert s) = .next (exchanged t (outBytes t) (csAssert s)) :=
    execRun_exchanges ht (outBytes t) he rfl (by simp)
  have hhigh : exec i (exchanged t (outBytes t) (csAssert s)) = .next (elemFinish e (wholeTxn t s)) := by
    rw [exec_elem (s := exchanged t (outBytes t) (csAssert s)) he,
      elemPrimitive_end ht rfl (by simp [exchanged]), csRelease_exchanged_csAssert]
  rw [txnSteps, execRun_succ hlow, execRun_add hbytes, execRun_succ hhigh, execRun]

/-- Settles O24: `execRun_txn` for an element that is a plain transaction, with its bytes and its result written out. -/
theorem transactionFollowsItsPseudocode : Obligations.TransactionFollowsItsPseudocode := by
  intro i s opc addr data he hc header outs q
  have hheader : header = headerBytes ⟨opc, addr, data⟩ := by
    cases addr with
    | none => rfl
    | some a => simp [header, headerBytes, addrBytes_addr]
  have houts : outs = outBytes ⟨opc, addr, data⟩ := by
    rw [outBytes, ← hheader]
    cases data <;> rfl
  refine ⟨exchangeAll_length outs _, ?_⟩
  have hrun := execRun_txn he rfl hc nofun
  rw [txnSteps, ← houts] at hrun
  rw [hrun]
  simp only [q, houts, hheader]
  cases data <;> rfl

end Sys2Proof.Machine
end

section
/-! PROOFS. Operations that are one plain transaction and a response (30 R90), and the reads of SR2 and SR3
(45 R186, R187). -/

namespace Sys2Proof.Machine

/-- From its start, an operation that is the one transaction `t` sends `t` in one bracket, responds, and leaves the block
idle at a start again. -/
theorem execRun_singleTxn {i : Instr} {t : Txn} {s : State} (hi : expansionOf i = [.txn t]) (hs : s.AtStart) :
    execRun i (txnSteps t + 1) s = .next { s with
      seq := .idle
      rbuf := txnResult t (busTxn (outBytes t) s.env).replies
      trace := s.trace ++ (busTxn (outBytes t) s.env).events ++
        [.rsp (answerBytes (answerOf i) (txnResult t (busTxn (outBytes t) s.env).replies) s.st)]
      env := (busTxn (outBytes t) s.env).env } := by
  obtain ⟨hc, hu, hn⟩ := hs
  have helem : (expansionOf i)[s.upc]? = some (.txn t) := by simp [hi, hu]
  have hrun : execRun i (txnSteps t) s = .next (advance (wholeTxn t s)) := execRun_txn helem rfl hc nofun
  have hresp := exec_respond (i := i) (s := advance (wholeTxn t s)) (by simp [hi, hu, advance, wholeTxn])
  rw [execRun_add hrun, execRun_succ hresp, execRun]
  cases s
  cases hc; cases hu; cases hn
  rfl

/-- A transaction that reads one byte after a bare opcode collects exactly the second reply (40 R115, R117). -/
theorem txnResult_readOne (op : Byte) (e : Env) :
    txnResult ⟨op, none, .read 1⟩ (busTxn [op, 0x00] e).replies = [(busTxn [op, 0x00] e).replies.getD 1 0] := rfl

/-- From its start, an operation that reads one byte after a bare opcode and answers with the replies responds with the
second reply. -/
theorem execRun_readOne {i : Instr} {op : Byte} {s : State} (hi : expansionOf i = [.txn ⟨op, none, .read 1⟩])
    (ha : answerOf i = .replies) (hs : s.AtStart) :
    execRun i 5 s = .next { s with
      seq := .idle
      rbuf := [(busTxn [op, 0x00] s.env).replies.getD 1 0]
      trace := s.trace ++ (busTxn [op, 0x00] s.env).events ++ [.rsp [(busTxn [op, 0x00] s.env).replies.getD 1 0]]
      env := (busTxn [op, 0x00] s.env).env } := by
  have houts : outBytes ⟨op, none, .read 1⟩ = [op, 0x00] := rfl
  have hrun := execRun_singleTxn hi hs
  rwa [houts, txnResult_readOne, ha] at hrun

/-- Settles O30: READ_SR2 and READ_SR3 are each one such read (`execRun_readOne`); `rbuf` is left with the reply. -/
theorem readSr2AndSr3ReturnTheReply : Obligations.ReadSr2AndSr3ReturnTheReply := by
  intro i op s hi hs q
  rcases List.mem_pair.mp hi with h | h
  · cases h; exact ⟨_, execRun_readOne rfl rfl hs⟩
  · cases h; exact ⟨_, execRun_readOne rfl rfl hs⟩

end Sys2Proof.Machine
end

section
/-! PROOFS. Operations without a polling loop, run from start to response (30 R90), and RESET, the one of them that is two
transactions with a delay between them (46 R207). -/

namespace Sys2Proof.Machine

section Elements
variable {i : Instr} {e : Elem} {s : State}

/-! ## Elements that do not poll -/

/-- An element that does not poll runs in its own number of steps to its end, however many busy reads `k` stands for. -/
theorem execRun_wholeElem (k : Nat) (he : (expansionOf i)[s.upc]? = some e) (hc : s.csN = true)
    (hp : e ≠ .waitIdle) : execRun i (elemSteps k e) s = .next (wholeElem k e s) := by
  cases e with
  | txn t => exact execRun_txn he rfl hc nofun
  | readStatus1 => exact execRun_txn he rfl hc nofun
  | delay u => exact execRun_succ (exec_elem he)
  | waitIdle => exact absurd rfl hp

/-- Such an element starts and ends with chip-select high (40 R114, R120). -/
theorem wholeElem_csN (k : Nat) (hc : s.csN = true) (hp : e ≠ .waitIdle) : (wholeElem k e s).csN = true := by
  cases e with
  | txn t => rfl
  | readStatus1 => rfl
  | delay u => exact hc
  | waitIdle => exact absurd rfl hp

/-- Such an element ends at the next element of the expansion (10 R26). -/
theorem wholeElem_upc (k : Nat) (hp : e ≠ .waitIdle) : (wholeElem k e s).upc = s.upc + 1 := by
  cases e with
  | txn t => rfl
  | readStatus1 => rfl
  | delay u => rfl
  | waitIdle => exact absurd rfl hp

/-! ## Expansions that do not poll -/

/-- From chip-select high with the elements `es` still to do, none of them a polling loop, the block does them one after
the other and stands past the last. -/
theorem execRun_wholeElems (k : Nat) (es : List Elem) (hd : (expansionOf i).drop s.upc = es) (hc : s.csN = true)
    (hp : .waitIdle ∉ es) :
    execRun i (es.map (elemSteps k)).sum s = .next (wholeElems k es s) ∧
    (wholeElems k es s).upc = s.upc + es.length := by
  induction es generalizing s with
  | nil => exact ⟨rfl, rfl⟩
  | cons e rest ih =>
    obtain ⟨hne, hrest⟩ : e ≠ .waitIdle ∧ .waitIdle ∉ rest := by simpa [eq_comm] using hp
    have he : (expansionOf i)[s.upc]? = some e := by rw [← List.head?_drop, hd, List.head?_cons]
    have hupc := wholeElem_upc (s := s) k hne
    have hd' : (expansionOf i).drop (wholeElem k e s).upc = rest := by
      rw [hupc, ← List.tail_drop, hd, List.tail_cons]
    obtain ⟨hrun, hend⟩ := ih hd' (wholeElem_csN k hc hne) hrest
    rw [List.map_cons, List.sum_cons, execRun_add (execRun_wholeElem k he hc hne)]
    exact ⟨hrun, by rw [wholeElems, hend, hupc, List.length_cons]; omega⟩

/-- From its start, an operation without a polling loop runs to its response. -/
theorem execRun_wholeOperation (k : Nat) (hs : s.AtStart) (hp : .waitIdle ∉ expansionOf i) :
    execRun i (operationSteps k i) s = .next (wholeOperation k i s) := by
  obtain ⟨hc, hu, -⟩ := hs
  obtain ⟨hrun, hend⟩ := execRun_wholeElems k (expansionOf i) (by rw [hu, List.drop_zero]) hc hp
  have hresponse : exec i (wholeElems k (expansionOf i) s) = .next (wholeOperation k i s) :=
    exec_respond (by rw [hend, hu, Nat.zero_add, List.getElem?_length])
  rw [operationSteps, execRun_add hrun, execRun_succ hresponse, execRun]

end Elements

/-! ## RESET -/

/-- Settles O31: RESET runs to its response (`execRun_wholeOperation`), three steps for {66}, one for the delay, three for
{99} and one for the response; neither transaction reads, so `rbuf` is left empty. -/
theorem resetSends66DelaySends99 : Obligations.ResetSends66DelaySends99 := by
  intro s hs q p
  have hrun : execRun .reset 8 s = .next (wholeOperation 0 .reset s) := execRun_wholeOperation 0 hs (by decide)
  refine ⟨[], hrun.trans ?_⟩
  obtain ⟨hc, hu, hn⟩ := hs
  cases s
  cases hc; cases hu; cases hn
  rfl

end Sys2Proof.Machine
end

section
/-! PROOFS. The encodings: framing an instruction's operands and reading them back are inverse (30 R81 to R93). -/

namespace Sys2Proof

/-! ## One row: framing and reading back -/

/-- The operands the bytes of a row's transaction hold: those its descriptor has, the others zero or empty (30 R86). -/
def heldOperands (c : Command) (addr : Addr) (len : Nat) (wdata : List Byte) : Operands where
  addr := if c.addressed then addr else 0
  len := match c.data with
    | .readLen => len
    | .none | .read _ | .writeByte | .writeAll => 0
  wdata := match c.data with
    | .writeByte | .writeAll => wdata
    | .none | .read _ | .readLen => []

/-- The bytes of a read phase are dummies and no others. -/
theorem all_dummyOut_iff (bytes : List Byte) :
    bytes.all (· == dummyOut) = true ↔ bytes = List.replicate bytes.length dummyOut := by
  simp [List.eq_replicate_iff]

theorem outBytes_commandTxn (c : Command) (addr : Addr) (len : Nat) (wdata : List Byte) :
    outBytes (commandTxn c addr len wdata) =
      c.opcode :: ((if c.addressed then addrBytes addr.toNat else []) ++
        phaseBytes (commandTxn c addr len wdata).data) := by
  obtain ⟨op, addressed, data⟩ := c
  cases addressed <;> rfl

/-- Reading back the data phase a row frames gives its operands. -/
theorem decodeData_phaseBytes (c : Command) (a addr : Addr) (len : Nat) (wdata : List Byte)
    (hw : c.data = .writeByte → wdata.length = 1) :
    decodeData c.data a (phaseBytes (commandTxn c addr len wdata).data) =
      .ok { heldOperands c addr len wdata with addr := a } := by
  obtain ⟨op, addressed, data⟩ := c
  cases data with
  | none => rfl
  | read n => simp [decodeData, phaseBytes, commandTxn, heldOperands]
  | readLen => simp [decodeData, phaseBytes, commandTxn, heldOperands]
  | writeByte => simp [decodeData, phaseBytes, commandTxn, heldOperands, hw rfl]
  | writeAll => rfl

/-- Reading back the bytes a row frames after its opcode gives its operands. -/
theorem decodeOperands_commandTxn (c : Command) (addr : Addr) (len : Nat) (wdata : List Byte)
    (hw : c.data = .writeByte → wdata.length = 1) :
    decodeOperands c (outBytes (commandTxn c addr len wdata)).tail = .ok (heldOperands c addr len wdata) := by
  have hdata (a : Addr) := decodeData_phaseBytes c a addr len wdata hw
  rw [outBytes_commandTxn, List.tail_cons]
  cases hc : c.addressed with
  | false => simp [decodeOperands, hc, hdata, heldOperands]
  | true =>
    simp only [decodeOperands, hc, if_true, addrBytes, List.cons_append, List.nil_append, hdata, addrOfBytes_addrBytes]
    simp [heldOperands, hc]

/-- A data phase that is read is the one the row frames from what was read. -/
theorem phaseBytes_of_decodeData {c : Command} {a : Addr} {bytes : List Byte} {o : Operands}
    (h : decodeData c.data a bytes = .ok o) :
    o.addr = a ∧ phaseBytes (commandTxn c o.addr o.len o.wdata).data = bytes ∧
      (c.data = .writeByte → o.wdata.length = 1) := by
  obtain ⟨op, addressed, data⟩ := c
  cases data with
  | none =>
    simp only [decodeData] at h
    split at h
    next hl => cases h; exact ⟨rfl, (List.length_eq_zero_iff.mp hl).symm, nofun⟩
    next => cases h
  | read n =>
    simp only [decodeData] at h
    split at h
    next hl =>
      split at h
      next hd => cases h; exact ⟨rfl, hl ▸ ((all_dummyOut_iff bytes).mp hd).symm, nofun⟩
      next => cases h
    next => cases h
  | readLen =>
    simp only [decodeData] at h
    split at h
    next hd => cases h; exact ⟨rfl, ((all_dummyOut_iff bytes).mp hd).symm, nofun⟩
    next => cases h
  | writeByte =>
    simp only [decodeData] at h
    split at h
    next hl => cases h; exact ⟨rfl, rfl, fun _ => hl⟩
    next => cases h
  | writeAll => cases h; exact ⟨rfl, rfl, nofun⟩

/-- Bytes that are read back as a row's operands are what the row frames from these. -/
theorem outBytes_of_decodeOperands {c : Command} {bytes : List Byte} {o : Operands}
    (h : decodeOperands c bytes = .ok o) :
    outBytes (commandTxn c o.addr o.len o.wdata) = c.opcode :: bytes ∧ (c.data = .writeByte → o.wdata.length = 1) := by
  rw [outBytes_commandTxn]
  unfold decodeOperands at h
  split at h
  next hc =>
    split at h
    next a2 a1 a0 rest =>
      obtain ⟨ha, hp, hw⟩ := phaseBytes_of_decodeData h
      exact ⟨by rw [hp, ha, addrBytes_addrOfBytes]; simp [hc], hw⟩
    all_goals cases h
  next hc =>
    obtain ⟨-, hp, hw⟩ := phaseBytes_of_decodeData h
    exact ⟨by rw [hp]; simp [hc], hw⟩

/-! ## The rows of the decoder (30 R93) -/

theorem decodeAs_ok {c : Command} {bytes : List Byte} {build : Operands → Instr} {i : Instr}
    (h : decodeAs c bytes build = .ok i) : ∃ o, decodeOperands c bytes = .ok o ∧ i = build o := by
  unfold decodeAs at h
  split at h
  next o ho => exact ⟨o, ho, by injection h with h; exact h.symm⟩
  next => cases h

/-- Where the first byte selects the row `c`, decoding what that row frames builds the instruction from its operands. -/
theorem decode_outBytes (c : Command) (build : Operands → Instr) {addr : Addr} {len : Nat} {wdata : List Byte}
    (hrow : decode (outBytes (commandTxn c addr len wdata)) =
      decodeAs c (outBytes (commandTxn c addr len wdata)).tail build)
    (hw : c.data = .writeByte → wdata.length = 1) :
    decode (outBytes (commandTxn c addr len wdata)) = .ok (build (heldOperands c addr len wdata)) := by
  rw [hrow, decodeAs, decodeOperands_commandTxn c addr len wdata hw]

/-- A first byte that no row has can only be the opcode of a BLOCK_ERASE (30 R89). -/
theorem decode_unlisted {op : Byte} (h : isListedOpcode op = false) (bytes : List Byte) :
    decode (op :: bytes) = decodeAs (cmdBlockErase op) bytes fun o => .blockErase o.addr op := by
  have hne : ∀ c ∈ commandTable, op ≠ c.opcode := by
    intro c hc heq
    simp only [isListedOpcode, List.any_eq_false, beq_iff_eq] at h
    exact h c hc heq.symm
  simp [commandTable] at hne
  simp [decode, hne]

/-- The bytes of an instruction's command are read back as the instruction, whatever its operands: each constructor's
command selects its own row, and a BLOCK_ERASE with an unlisted opcode falls through every row. -/
theorem decode_encode {i : Instr} {bytes : List Byte} (he : encode i = some bytes)
    (hlisted : ∀ addr bop, i = .blockErase addr bop → isListedOpcode bop = false) : decode bytes = .ok i := by
  cases i with
  | mfrDeviceId => cases he; exact decode_outBytes cmdMfrDeviceId (fun _ => .mfrDeviceId) rfl nofun
  | jedecId => cases he; exact decode_outBytes cmdJedecId (fun _ => .jedecId) rfl nofun
  | uniqueId => cases he; exact decode_outBytes cmdUniqueId (fun _ => .uniqueId) rfl nofun
  | readData addr len => cases he; exact decode_outBytes cmdReadData (fun o => .readData o.addr o.len) rfl nofun
  | fastRead addr len => cases he; exact decode_outBytes cmdFastRead (fun o => .fastRead o.addr o.len) rfl nofun
  | pageProgram addr wdata =>
    cases he
    exact decode_outBytes cmdPageProgram (fun o => .pageProgram o.addr o.wdata) rfl nofun
  | sectorErase addr => cases he; exact decode_outBytes cmdSectorErase (fun o => .sectorErase o.addr) rfl nofun
  | blockErase32k addr => cases he; exact decode_outBytes cmdBlockErase32k (fun o => .blockErase32k o.addr) rfl nofun
  | blockErase64k addr => cases he; exact decode_outBytes cmdBlockErase64k (fun o => .blockErase64k o.addr) rfl nofun
  | chipErase => cases he; exact decode_outBytes cmdChipErase (fun _ => .chipErase) rfl nofun
  | writeEnable => cases he; exact decode_outBytes cmdWriteEnable (fun _ => .writeEnable) rfl nofun
  | writeDisable => cases he; exact decode_outBytes cmdWriteDisable (fun _ => .writeDisable) rfl nofun
  | volatileSrWriteEnable =>
    cases he
    exact decode_outBytes cmdVolatileSrWriteEnable (fun _ => .volatileSrWriteEnable) rfl nofun
  | readSr1 => cases he; exact decode_outBytes cmdReadSr1 (fun _ => .readSr1) rfl nofun
  | writeSr1 wval => cases he; exact decode_outBytes cmdWriteSr1 (fun o => .writeSr1 (wvalOf o)) rfl fun _ => rfl
  | readSr2 => cases he; exact decode_outBytes cmdReadSr2 (fun _ => .readSr2) rfl nofun
  | writeSr2 wval => cases he; exact decode_outBytes cmdWriteSr2 (fun o => .writeSr2 (wvalOf o)) rfl fun _ => rfl
  | readSr3 => cases he; exact decode_outBytes cmdReadSr3 (fun _ => .readSr3) rfl nofun
  | writeSr3 wval => cases he; exact decode_outBytes cmdWriteSr3 (fun o => .writeSr3 (wvalOf o)) rfl fun _ => rfl
  | globalLock => cases he; exact decode_outBytes cmdGlobalLock (fun _ => .globalLock) rfl nofun
  | globalUnlock => cases he; exact decode_outBytes cmdGlobalUnlock (fun _ => .globalUnlock) rfl nofun
  | powerDown => cases he; exact decode_outBytes cmdPowerDown (fun _ => .powerDown) rfl nofun
  | releasePowerDown => cases he; exact decode_outBytes cmdReleasePowerDown (fun _ => .releasePowerDown) rfl nofun
  | releasePowerDownId => cases he; exact decode_outBytes cmdReleasePowerDownId (fun _ => .releasePowerDownId) rfl nofun
  | enableReset => cases he; exact decode_outBytes cmdEnableReset (fun _ => .enableReset) rfl nofun
  | resetDevice => cases he; exact decode_outBytes cmdResetDevice (fun _ => .resetDevice) rfl nofun
  | blockErase addr bop =>
    cases he
    exact decode_outBytes (cmdBlockErase bop) (fun o => .blockErase o.addr bop)
      (decode_unlisted (hlisted addr bop rfl) _) nofun
  | reset | isBusy | isWriteEnabled | blockProtectBits | waitIdle => cases he

/-- Settles O4: `decode_encode`, which does not need the length of a read to fit its field. -/
theorem decodingAnEncodedCommandGivesItBack : Obligations.DecodingAnEncodedCommandGivesItBack :=
  fun _ _ _ he hlisted => decode_encode he hlisted

/-- An instruction built from the operands read as the row `c` is encoded as the bytes read. -/
theorem encode_of_decodeAs (c : Command) {bytes : List Byte} {build : Operands → Instr} {i : Instr}
    (h : decodeAs c bytes build = .ok i)
    (hb : ∀ o, ownTxn (build o) =
      some (commandTxn c o.addr o.len (if c.data = .writeByte then [wvalOf o] else o.wdata))) :
    encode i = some (c.opcode :: bytes) := by
  obtain ⟨o, ho, rfl⟩ := decodeAs_ok h
  obtain ⟨houts, hw⟩ := outBytes_of_decodeOperands ho
  have hval : (if c.data = .writeByte then [wvalOf o] else o.wdata) = o.wdata := by
    split
    next hc =>
      obtain ⟨w, hwd⟩ := List.length_eq_one_iff.mp (hw hc)
      simp [wvalOf, hwd]
    next => rfl
  rw [encode, hb, hval, Option.map_some, houts]

/-- Both forms of 0xAB, told apart by length (30 R87), are encoded as the bytes read. -/
theorem encode_of_decode_release {bytes : List Byte} {i : Instr}
    (h : decode (cmdReleasePowerDown.opcode :: bytes) = .ok i) :
    encode i = some (cmdReleasePowerDown.opcode :: bytes) := by
  cases bytes with
  | nil => cases h; rfl
  | cons b rest => exact encode_of_decodeAs cmdReleasePowerDownId h fun _ => rfl

/-- Settles O5: the first byte selects a row of the table or a BLOCK_ERASE, and what is read as that row is what the row
frames (`encode_of_decodeAs`). -/
theorem encodingADecodedTransactionGivesItBack : Obligations.EncodingADecodedTransactionGivesItBack := by
  intro bytes i h
  rcases bytes with _ | ⟨op, rest⟩
  · cases h
  cases hlisted : isListedOpcode op with
  | false =>
    rw [decode_unlisted hlisted] at h
    exact encode_of_decodeAs (cmdBlockErase op) h fun _ => rfl
  | true =>
    obtain ⟨c, hc, hop⟩ : ∃ c ∈ commandTable, c.opcode = op := by simpa [isListedOpcode] using hlisted
    subst hop
    simp only [commandTable, List.cons_append, List.nil_append, List.mem_cons, List.not_mem_nil, or_false] at hc
    rcases hc with rfl | rfl | rfl | rfl | rfl | rfl | rfl | rfl | rfl | rfl | rfl | rfl | rfl |
      rfl | rfl | rfl | rfl | rfl | rfl | rfl | rfl | rfl | rfl | rfl | rfl | rfl
    · exact encode_of_decodeAs cmdMfrDeviceId h fun _ => rfl
    · exact encode_of_decodeAs cmdJedecId h fun _ => rfl
    · exact encode_of_decodeAs cmdUniqueId h fun _ => rfl
    · exact encode_of_decodeAs cmdReadData h fun _ => rfl
    · exact encode_of_decodeAs cmdFastRead h fun _ => rfl
    · exact encode_of_decodeAs cmdPageProgram h fun _ => rfl
    · exact encode_of_decodeAs cmdSectorErase h fun _ => rfl
    · exact encode_of_decodeAs cmdBlockErase32k h fun _ => rfl
    · exact encode_of_decodeAs cmdBlockErase64k h fun _ => rfl
    · exact encode_of_decodeAs cmdChipErase h fun _ => rfl
    · exact encode_of_decodeAs cmdWriteEnable h fun _ => rfl
    · exact encode_of_decodeAs cmdWriteDisable h fun _ => rfl
    · exact encode_of_decodeAs cmdVolatileSrWriteEnable h fun _ => rfl
    · exact encode_of_decodeAs cmdReadSr1 h fun _ => rfl
    · exact encode_of_decodeAs cmdWriteSr1 h fun _ => rfl
    · exact encode_of_decodeAs cmdReadSr2 h fun _ => rfl
    · exact encode_of_decodeAs cmdWriteSr2 h fun _ => rfl
    · exact encode_of_decodeAs cmdReadSr3 h fun _ => rfl
    · exact encode_of_decodeAs cmdWriteSr3 h fun _ => rfl
    · exact encode_of_decodeAs cmdGlobalLock h fun _ => rfl
    · exact encode_of_decodeAs cmdGlobalUnlock h fun _ => rfl
    · exact encode_of_decodeAs cmdPowerDown h fun _ => rfl
    · exact encode_of_decode_release h
    · exact encode_of_decode_release h
    · exact encode_of_decodeAs cmdEnableReset h fun _ => rfl
    · exact encode_of_decodeAs cmdResetDevice h fun _ => rfl

/-- Settles O6: such a transaction is read as a BLOCK_ERASE (`decode_unlisted`), whose four bytes are its encoding (O5).
-/
theorem unlistedFirstByteComesFromBlockErase : Obligations.UnlistedFirstByteComesFromBlockErase := by
  intro op rest i hlisted h
  have henc := encodingADecodedTransactionGivesItBack _ _ h
  rw [decode_unlisted hlisted] at h
  obtain ⟨o, -, rfl⟩ := decodeAs_ok h
  have hbytes : op :: (addrBytes o.addr.toNat ++ []) = op :: rest := Option.some.inj henc
  injection hbytes with _ hrest
  exact ⟨by rw [← hrest]; rfl, o.addr, rfl⟩

/-! ## The address phase and the table (30 R83, R86) -/

/-- Settles O1: the framing of a row (`outBytes_commandTxn`) with the address bytes written out (`addrBytes_addr`). -/
theorem addressPhaseIsThreeBytesHighFirst : Obligations.AddressPhaseIsThreeBytesHighFirst := by
  refine ⟨?_, ?_, by decide, by decide, by decide, by decide, by decide⟩
  · intro c addr len wdata
    cases hc : c.addressed with
    | false => simp [headerBytes, commandTxn, hc]
    | true => simp [headerBytes, commandTxn, hc, addrBytes_addr]
  · intro t k hk
    cases hd : t.data with
    | none => simp [collects, hd]
    | read n => simpa [collects, hd] using hk
    | write bytes => simp [collects, hd]

/-- Settles O2: the opcodes of the table are the 25 listed bytes, each way by running through the shorter list. -/
theorem commandTableHas26RowsOver25Opcodes : Obligations.CommandTableHas26RowsOver25Opcodes := by
  refine ⟨rfl, by decide, ?_, by decide⟩
  intro b
  constructor
  · intro h
    obtain ⟨c, hc, rfl⟩ : ∃ c ∈ commandTable, c.opcode = b := by simpa [isListedOpcode] using h
    revert c
    decide
  · revert b
    decide

/-- Settles O3: each word is read bit by bit. -/
theorem writtenWordsDecode : Obligations.WrittenWordsDecode := by
  refine ⟨?_, ?_, ?_, ?_, ?_, ?_, ?_, ?_⟩ <;> decide

end Sys2Proof
end

section
/-! PROOFS. Requests, acceptance, reset and the step (00 R7, R9; 10 R22, R23, R34; 60 R220; 70 R240). -/

namespace Sys2Proof.Machine

/-! ## Requests and the instructions they ask for (10 R23; 30 R90) -/

/-- Settles O11: field by field; a length that fits the field is kept, and a BLOCK_ERASE of another opcode is neither of
the two written forms. -/
theorem everyInstructionCanBeRequested : Obligations.EveryInstructionCanBeRequested := by
  intro i hw
  cases i with
  | readData addr len | fastRead addr len =>
    have hlen : len < 2 ^ Config.lenW := by simpa [Instr.wellFormed] using hw
    simp [requestOf, requestInstr, Nat.mod_eq_of_lt hlen]
  | blockErase addr bop =>
    obtain ⟨h32, h64⟩ : bop ≠ 0x52 ∧ bop ≠ 0xD8 := by
      simpa only [Instr.wellFormed, Bool.and_eq_true, bne_iff_ne] using hw
    exact (if_neg h32).trans (if_neg h64)
  | _ => rfl

/-- Settles O54: a length comes from `LEN_W` bits, and a BLOCK_ERASE is left to `bop` only past both legal opcodes. -/
theorem everyRequestAsksForAWellFormedInstruction : Obligations.EveryRequestAsksForAWellFormedInstruction := by
  rintro ⟨op, addr, len, wdata, bop, wval⟩
  cases op with
  | readData | fastRead => exact decide_eq_true len.isLt
  | blockErase =>
    simp only [requestInstr]
    split
    next => rfl
    next h32 =>
      split
      next => rfl
      next h64 => simpa [Instr.wellFormed, cmdBlockErase32k, cmdBlockErase64k] using And.intro h32 h64
  | _ => rfl

/-- Settles O10: the instruction is built from the operation and the fields its row reads alone. -/
theorem unreadRequestFieldsAffectNothing : Obligations.UnreadRequestFieldsAffectNothing := by
  rintro ⟨op, addr, len, wdata, bop, wval⟩ ⟨op', addr', len', wdata', bop', wval'⟩ hop haddr hlen hwdata hbop hwval
  cases hop
  cases op <;> simp_all [requestInstr]

theorem isInternal_iff (op : Op) :
    isInternal op = true ↔ op ∈ [.writeEnable, .writeDisable, .volatileSrWriteEnable, .enableReset, .resetDevice] := by
  cases op <;> decide

/-- Settles O12: the refused operations are the internal ones (`isInternal_iff`). -/
theorem publicOnlyRefusesExactlyTheInternalOperations : Obligations.PublicOnlyRefusesExactlyTheInternalOperations := by
  refine ⟨rfl, fun onlyPublic s r rest h => ?_⟩
  simp only [idleStep, h, Bool.and_eq_true, isInternal_iff]

/-! ## The step (10 R22, R26; 60 R220; 92 D19) -/

theorem step_run {s : State} (hr : rstLevel s = false) (hs : s.seq = .run) :
    step s = exec (requestInstr s.req) (rstTaken s) := by simp [step, hr, hs]

theorem step_idle {s : State} (hr : rstLevel s = false) (hs : s.seq = .idle) :
    step s = idleStep publicOnly (rstTaken s) := by simp [step, hr, hs]

theorem step_reset {s : State} (hr : rstLevel s = true) : step s = .next (blockReset (rstTaken s)) := by simp [step, hr]

/-- Settles O7: `step_run`. -/
theorem stepRunsTheLatchedInstruction : Obligations.StepRunsTheLatchedInstruction := fun _ hr hs => step_run hr hs

/-- Settles O9: with nothing presented the block waits, with a request presented it accepts it. -/
theorem idleBlockAcceptsOrWaits : Obligations.IdleBlockAcceptsOrWaits := by
  intro s hr hs
  rw [step_idle hr hs]
  cases hq : s.reqIn with
  | nil => rw [idleStep_waits (by simpa using hq)]; cases s; cases hq; rfl
  | cons r rest => rw [idleStep_accepts (r := r) (rest := rest) (by simpa using hq)]; rfl

/-- Settles O8: the placed bits latch the request of the instruction, which asks for exactly it (O11). -/
theorem placedInstructionRunsNext : Obligations.PlacedInstructionRunsNext := by
  intro s nbits w i hd hw
  have hplaced : s.withFetchWord nbits w = latched i s := by simp [State.withFetchWord, hd]
  rw [hplaced, step_run rfl rfl, latched_req, everyInstructionCanBeRequested i hw]
  exact ⟨rfl, rfl, rfl, rfl⟩

/-- Every instruction answers a next state in every state. -/
theorem exec_total (i : Instr) (s : State) : ∃ t, exec i s = .next t := by
  cases he : (expansionOf i)[s.upc]? with
  | some e => exact ⟨_, exec_elem he⟩
  | none => exact ⟨_, exec_respond he⟩

/-- Settles O15: a reset, a wait, an acceptance and every step of an instruction (`exec_total`) answer a next state. -/
theorem noStepFaultsOrRefuses : Obligations.NoStepFaultsOrRefuses := by
  intro s
  cases hr : rstLevel s with
  | true => exact ⟨_, step_reset hr⟩
  | false =>
    cases hs : s.seq with
    | run => rw [step_run hr hs]; exact exec_total _ _
    | idle =>
      rw [step_idle hr hs]
      cases hq : s.reqIn with
      | nil => exact ⟨_, idleStep_waits hq⟩
      | cons r rest => exact ⟨_, idleStep_accepts hq⟩

/-! ## Reset (10 R34; 70 R240, R241) -/

/-- Settles O13: the reset state waits, and with a request presented it accepts it. -/
theorem resetLeavesTheBlockIdleAndReleased : Obligations.ResetLeavesTheBlockIdleAndReleased :=
  ⟨rfl, rfl, rfl, rfl, rfl, rfl, rfl, fun _ _ => ⟨_, rfl, rfl, rfl, rfl, rfl⟩⟩

/-- A transaction cut short leaves the answers of the environment as they were. -/
theorem envCut_answers (e : Env) : (envCut e).replies = e.replies ∧ (envCut e).drawn = e.drawn := by
  unfold envCut
  split <;> exact ⟨rfl, rfl⟩

/-- Settles O14: `step_reset`, by the level chip-select was at. -/
theorem blockResetAbandonsTheOperation : Obligations.BlockResetAbandonsTheOperation := by
  intro s hr
  refine ⟨_, step_reset hr, rfl, rfl, rfl, rfl, rfl, ?_, rfl, rfl, ?_⟩
  · cases hc : s.csN <;> simp [hc]
  · cases hc : s.csN <;> simp [hc, envCut_answers]

/-- Settles O37: nothing has happened yet, and the array has no known byte. -/
theorem invariantHoldsAtReset : Obligations.InvariantHoldsAtReset :=
  ⟨rfl, fun _ => ⟨rfl, rfl, rfl⟩, nofun, rfl⟩

/-- Settles O42: without a contract the reply is drawn (`envExchange_free`), from the list while it lasts. -/
theorem withoutAContractAnyReplyIsPossible : Obligations.WithoutAContractAnyReplyIsPossible := by
  intro out b rest e hc
  exact ⟨envExchange_free (e := { e with replies := b :: rest }) hc out,
    envExchange_free (e := { e with replies := [] }) hc out⟩

end Sys2Proof.Machine
end

section
/-! PROOFS. What one step of an instruction can do, said once for every element, and what it leaves unchanged (10 R20 to
R26; 40 R111 to R120; 41 R138). -/

namespace Sys2Proof.Machine

/-! ## What follows the CS+ of an element -/

@[simp] theorem afterPoll_csN (s : State) : (afterPoll s).csN = s.csN := by unfold afterPoll; split <;> rfl
@[simp] theorem afterPoll_seq (s : State) : (afterPoll s).seq = s.seq := by unfold afterPoll; split <;> rfl
@[simp] theorem afterPoll_req (s : State) : (afterPoll s).req = s.req := by unfold afterPoll; split <;> rfl
@[simp] theorem afterPoll_rbuf (s : State) : (afterPoll s).rbuf = s.rbuf := by unfold afterPoll; split <;> rfl
@[simp] theorem afterPoll_st (s : State) : (afterPoll s).st = s.rbuf.headD 0 := by unfold afterPoll; split <;> rfl
@[simp] theorem afterPoll_rst (s : State) : (afterPoll s).rst = s.rst := by unfold afterPoll; split <;> rfl
@[simp] theorem afterPoll_reqIn (s : State) : (afterPoll s).reqIn = s.reqIn := by unfold afterPoll; split <;> rfl
@[simp] theorem afterPoll_trace (s : State) : (afterPoll s).trace = s.trace := by unfold afterPoll; split <;> rfl
@[simp] theorem afterPoll_env (s : State) : (afterPoll s).env = s.env := by unfold afterPoll; split <;> rfl

@[simp] theorem elemFinish_csN (e : Elem) (s : State) : (elemFinish e s).csN = s.csN := by cases e <;> simp [elemFinish]
@[simp] theorem elemFinish_seq (e : Elem) (s : State) : (elemFinish e s).seq = s.seq := by cases e <;> simp [elemFinish]
@[simp] theorem elemFinish_req (e : Elem) (s : State) : (elemFinish e s).req = s.req := by cases e <;> simp [elemFinish]
@[simp] theorem elemFinish_rbuf (e : Elem) (s : State) : (elemFinish e s).rbuf = s.rbuf := by
  cases e <;> simp [elemFinish]
@[simp] theorem elemFinish_rst (e : Elem) (s : State) : (elemFinish e s).rst = s.rst := by cases e <;> simp [elemFinish]
@[simp] theorem elemFinish_reqIn (e : Elem) (s : State) : (elemFinish e s).reqIn = s.reqIn := by
  cases e <;> simp [elemFinish]
@[simp] theorem elemFinish_trace (e : Elem) (s : State) : (elemFinish e s).trace = s.trace := by
  cases e <;> simp [elemFinish]
@[simp] theorem elemFinish_env (e : Elem) (s : State) : (elemFinish e s).env = s.env := by cases e <;> simp [elemFinish]

/-- After its transaction an element is over, or it is a polling loop whose status read found busy (41 R138). -/
theorem elemFinish_upc (e : Elem) (s : State) :
    (elemFinish e s).upc = s.upc ∨ (elemFinish e s).upc = s.upc + 1 := by
  cases e with
  | txn t => exact .inr rfl
  | readStatus1 => exact .inr rfl
  | waitIdle =>
    rcases afterPoll_cases s with ⟨-, h⟩ | ⟨-, h⟩
    · exact .inl (by simp [elemFinish, h])
    · exact .inr (by simp [elemFinish, h])
  | delay u => exact .inl rfl

/-! ## The steps of an instruction -/

/-- What one step of `i` from `s` can be: CS-, one exchange, CS+ with what follows it, the delay of a polling loop, a
delay, or the response (00 R11; 10 R26). -/
inductive ExecStep (i : Instr) (s : State) : State → Prop
  | select {e : Elem} {t : Txn} (he : (expansionOf i)[s.upc]? = some e) (ht : elemTxn e = some t) (hc : s.csN = true)
      (hw : e = .waitIdle → awaitsDelay s = false) : ExecStep i s (csAssert s)
  | byte {e : Elem} {t : Txn} {out : Byte} (he : (expansionOf i)[s.upc]? = some e) (ht : elemTxn e = some t)
      (hc : s.csN = false) (hb : (outBytes t)[s.cnt]? = some out) : ExecStep i s (xfer out (collects t s.cnt) s)
  | release {e : Elem} {t : Txn} (he : (expansionOf i)[s.upc]? = some e) (ht : elemTxn e = some t)
      (hc : s.csN = false) (hb : (outBytes t)[s.cnt]? = none) : ExecStep i s (elemFinish e (csRelease s))
  | pause (he : (expansionOf i)[s.upc]? = some .waitIdle) (hw : awaitsDelay s = true) :
      ExecStep i s { delay pollDelay s with cnt := 0 }
  | delay {u : Nat} (he : (expansionOf i)[s.upc]? = some (.delay u)) : ExecStep i s (advance (delay u s))
  | respond (he : (expansionOf i)[s.upc]? = none) :
      ExecStep i s (respond (answerBytes (answerOf i) s.rbuf s.st) s)

theorem exec_of_execStep {i : Instr} {s t : State} (h : ExecStep i s t) : exec i s = .next t := by
  cases h with
  | select he ht hc hw => rw [exec_elem he, elemPrimitive_start ht hc hw]
  | byte he ht hc hb => rw [exec_elem he, elemPrimitive_byte ht hc hb]
  | release he ht hc hb => rw [exec_elem he, elemPrimitive_end ht hc hb]
  | pause he hw => rw [exec_elem he, elemPrimitive, if_pos hw]
  | delay he => exact exec_elem he
  | respond he => exact exec_respond he

/-- At an element that sends a transaction and does not wait for a delay, there is such a step. -/
theorem exists_execStep_of_txn {i : Instr} {s : State} {e : Elem} {t : Txn} (he : (expansionOf i)[s.upc]? = some e)
    (ht : elemTxn e = some t) (hw : e = .waitIdle → awaitsDelay s = false) : ∃ u, ExecStep i s u := by
  cases hc : s.csN with
  | true => exact ⟨_, .select he ht hc hw⟩
  | false =>
    cases hb : (outBytes t)[s.cnt]? with
    | some out => exact ⟨_, .byte he ht hc hb⟩
    | none => exact ⟨_, .release he ht hc hb⟩

theorem exists_execStep (i : Instr) (s : State) : ∃ t, ExecStep i s t := by
  cases he : (expansionOf i)[s.upc]? with
  | none => exact ⟨_, .respond he⟩
  | some e =>
    cases e with
    | txn t => exact exists_execStep_of_txn he rfl nofun
    | readStatus1 => exact exists_execStep_of_txn he rfl nofun
    | delay u => exact ⟨_, .delay he⟩
    | waitIdle =>
      cases hw : awaitsDelay s with
      | true => exact ⟨_, .pause he hw⟩
      | false => exact exists_execStep_of_txn he rfl fun _ => hw

/-- The step `exec` takes is one of these. -/
theorem execStep_of_exec {i : Instr} {s t : State} (h : exec i s = .next t) : ExecStep i s t := by
  obtain ⟨u, hu⟩ := exists_execStep i s
  have heq : u = t := by simpa [exec_of_execStep hu] using h
  exact heq ▸ hu

theorem awaitsDelay_of_cnt_zero {s : State} (h : s.cnt = 0) : awaitsDelay s = false := by
  simp only [awaitsDelay, h, Bool.and_eq_false_iff]
  exact .inr rfl

/-- Every expansion opens with an element that sends a transaction (30 R90). -/
theorem expansionOf_head (i : Instr) : ∃ e t, (expansionOf i)[0]? = some e ∧ elemTxn e = some t := by
  cases i <;> exact ⟨_, _, rfl, rfl⟩

/-- Settles O16: the first element of every expansion sends a transaction (`expansionOf_head`), and a transaction starts
with CS-. -/
theorem everyInstructionOpensWithChipSelect : Obligations.EveryInstructionOpensWithChipSelect := by
  rintro i s ⟨hc, hu, hn⟩
  obtain ⟨e, t, he, ht⟩ := expansionOf_head i
  rw [exec_of_execStep (.select (hu ▸ he) ht hc fun _ => awaitsDelay_of_cnt_zero hn)]
  cases s
  cases hn
  rfl

/-- Settles O17: the step is the exchange of the next byte, which is collected as `collects` says. -/
theorem stepInsideATransactionExchangesOneByte : Obligations.StepInsideATransactionExchangesOneByte := by
  intro i s e t out he ht hc hb
  rw [exec_of_execStep (.byte he ht hc hb)]
  rcases t with ⟨opc, addr, data⟩
  cases data <;> simp [xfer, emit, collects]

/-- Settles O18: past the last byte the step is CS+, and a plain transaction is then over. -/
theorem transactionEndsByReleasingChipSelect : Obligations.TransactionEndsByReleasingChipSelect := by
  intro i s t he hc hn
  rw [exec_of_execStep (.release he rfl hc (List.getElem?_eq_none hn))]
  rfl

/-- Settles O19: past the last element the step is the response, with the answer of the instruction's row. -/
theorem everyInstructionEndsWithItsResponse : Obligations.EveryInstructionEndsWithItsResponse := by
  intro i s hu
  rw [exec_of_execStep (.respond (by rw [hu, List.getElem?_length]))]
  cases i <;> rfl

/-- Past the last byte of a status read two bytes have been exchanged. -/
theorem two_le_of_statusTxn_end {n : Nat} (h : (outBytes statusTxn)[n]? = none) : 2 ≤ n :=
  List.getElem?_eq_none_iff.mp h

/-- Settles O20: of the steps at a polling loop only the CS+ of a status read can leave it, and only with bit 0 clear
(`afterPoll_cases`). -/
theorem pollEndsOnlyOnAnIdleRead : Obligations.PollEndsOnlyOnAnIdleRead := by
  intro i s t hpoll h
  cases execStep_of_exec h with
  | select | byte | pause => exact .inl rfl
  | delay he => cases hpoll.symm.trans he
  | respond he => cases hpoll.symm.trans he
  | release he ht hc hb =>
    cases hpoll.symm.trans he
    cases ht
    rcases afterPoll_cases (csRelease s) with ⟨-, hbusy⟩ | ⟨hidle, hover⟩
    · exact .inl (by simp [elemFinish, hbusy])
    · simp only [elemFinish, hover]
      exact .inr ⟨rfl, hc, two_le_of_statusTxn_end hb, rfl, rfl, hidle⟩

/-! ## The status snapshot (10 R25) -/

/-- A step leaves the snapshot, or it is the CS+ of a status read and the snapshot is the byte collected. -/
theorem execStep_st {i : Instr} {s t : State} (h : ExecStep i s t) :
    t.st = s.st ∨
      ((expansionOf i)[s.upc]? ∈ [some .readStatus1, some .waitIdle] ∧ s.csN = false ∧ 2 ≤ s.cnt ∧ t.csN = true ∧
        t.st = s.rbuf.headD 0) := by
  cases h with
  | select | byte | pause | delay | respond => exact .inl rfl
  | @release e u he ht hc hb =>
    cases e with
    | txn u => exact .inl rfl
    | delay u => exact .inl rfl
    | readStatus1 =>
      cases ht
      exact .inr ⟨by simp [he], hc, two_le_of_statusTxn_end hb, rfl, rfl⟩
    | waitIdle =>
      cases ht
      exact .inr ⟨by simp [he], hc, two_le_of_statusTxn_end hb, by simp [elemFinish], by simp [elemFinish]⟩

/-- The operations of the third clause make no status read. -/
theorem expansionOf_of_noStatusRead {i : Instr}
    (h : i ∈ [.mfrDeviceId, .jedecId, .uniqueId, .writeEnable, .writeDisable, .volatileSrWriteEnable, .readSr2,
      .readSr3, .globalLock, .globalUnlock, .powerDown, .releasePowerDown, .releasePowerDownId, .enableReset,
      .resetDevice, .reset] ∨ (∃ addr len, i = .readData addr len ∨ i = .fastRead addr len)) :
    .readStatus1 ∉ expansionOf i ∧ .waitIdle ∉ expansionOf i := by
  rcases h with h | ⟨addr, len, rfl | rfl⟩
  · revert i
    decide
  · exact ⟨by simp [expansionOf], by simp [expansionOf]⟩
  · exact ⟨by simp [expansionOf], by simp [expansionOf]⟩

/-- Settles O22: `execStep_st`; an instruction without a status read or a poll is at neither in any step. -/
theorem onlyStatusReadsWriteTheSnapshot : Obligations.OnlyStatusReadsWriteTheSnapshot := by
  intro i s t h
  have hst := execStep_st (execStep_of_exec h)
  have helem : (expansionOf i)[s.upc]? ∉ [some .readStatus1, some .waitIdle] → t.st = s.st :=
    fun hn => hst.resolve_right fun ⟨hm, _⟩ => hn hm
  refine ⟨hst, helem, fun hi => helem fun hm => ?_⟩
  obtain ⟨hnr, hnw⟩ := expansionOf_of_noStatusRead hi
  rcases List.mem_pair.mp hm with hm | hm
  · exact hnr (List.mem_of_getElem? hm)
  · exact hnw (List.mem_of_getElem? hm)

end Sys2Proof.Machine
end

section
/-! PROOFS. What the chip keeps through a command (20 R63 to R73), said once for any property of a chip that the array's
own operations keep. -/

namespace Sys2Proof.Machine

section Keeps
variable {P : Chip → Prop}

/-- The latch and the busy bit play no part in a property. -/
def CycleFree (P : Chip → Prop) : Prop := ∀ c wel busy, P c → P { c with wel := wel, busy := busy }

/-- No flag of the chip but the one that it sleeps plays a part in a property. -/
def FlagFree (P : Chip → Prop) : Prop :=
  ∀ c wel busy bp armed volatileArmed, P c →
    P { c with wel := wel, busy := busy, bp := bp, armed := armed, volatileArmed := volatileArmed }

theorem FlagFree.cycleFree (h : FlagFree P) : CycleFree P :=
  fun c wel busy hc => h c wel busy c.bp c.armed c.volatileArmed hc

/-! ## Programs and erases (20 R66, R68, R69) -/

theorem mutating_keeps {effect doubt : Chip → Chip} (hf : CycleFree P) (he : ∀ d, P d → P (effect d))
    (hd : ∀ d, P d → P (doubt d)) {c : Chip} (hc : P c) : P (mutating effect doubt c) := by
  rcases mutating_cases effect doubt c with h | h | h
  · rw [h]; exact he _ (hf c c.wel _ hc)
  · rwa [h]
  · rw [h]; exact hf _ _ _ (hd c hc)

theorem programFrom_keeps {addr : Nat} (hp : ∀ l w d, P d → P (programByte (programPlace addr l) w d)) (j : Nat)
    (wdata : List Byte) {c : Chip} (hc : P c) : P (programFrom addr j wdata c) := by
  induction wdata generalizing j c with
  | nil => exact hc
  | cons w rest ih => exact ih (j + 1) (hp j w c hc)

theorem forgetFrom_keeps {addr : Nat} (hp : ∀ l d, P d → P (forgetByte (programPlace addr l) d)) (j : Nat)
    (wdata : List Byte) {c : Chip} (hc : P c) : P (forgetFrom addr j wdata c) := by
  induction wdata generalizing j c with
  | nil => exact hc
  | cons w rest ih => exact ih (j + 1) (hp j c hc)

theorem onPage_keeps {addr : Addr} {wdata : List Byte} {bytes : Nat → Nat → List Byte → Chip → Chip} (hf : CycleFree P)
    (hb : ∀ d, P d → P (bytes addr.toNat 0 wdata d))
    (ho : ∀ d, ¬ pageBase addr.toNat + pageSize ≤ d.size → P d → P (outOfRange d)) {c : Chip} (hc : P c) :
    P (onPage addr wdata bytes c) := by
  unfold onPage
  split
  · exact hf c _ _ hc
  · split
    next => exact hb c hc
    next h => exact ho c h hc

theorem onAligned_keeps {g a : Nat} {region : Nat → Nat → Chip → Chip}
    (hr : ∀ d, P d → P (region (a - a % g) (a - a % g + g) d))
    (ho : ∀ d, ¬ a - a % g + g ≤ d.size → P d → P (outOfRange d)) {c : Chip} (hc : P c) :
    P (onAligned g a region c) := by
  unfold onAligned
  split
  next => exact hr c hc
  next h => exact ho c h hc

theorem programPage_keeps {addr : Addr} (wdata : List Byte) (hf : CycleFree P)
    (hp : ∀ l w d, P d → P (programByte (programPlace addr.toNat l) w d))
    (hd : ∀ l d, P d → P (forgetByte (programPlace addr.toNat l) d))
    (ho : ∀ d, ¬ pageBase addr.toNat + pageSize ≤ d.size → P d → P (outOfRange d)) {c : Chip} (hc : P c) :
    P (programPage addr wdata c) :=
  mutating_keeps hf (fun _ => onPage_keeps hf (fun _ => programFrom_keeps hp 0 wdata) ho)
    (fun _ => onPage_keeps hf (fun _ => forgetFrom_keeps hd 0 wdata) ho) hc

theorem eraseAligned_keeps {g : Nat} {addr : Addr} (hf : CycleFree P)
    (he : ∀ d, P d → P (eraseRegion (addr.toNat - addr.toNat % g) (addr.toNat - addr.toNat % g + g) d))
    (hd : ∀ d, P d → P (forgetRegion (addr.toNat - addr.toNat % g) (addr.toNat - addr.toNat % g + g) d))
    (ho : ∀ d, ¬ addr.toNat - addr.toNat % g + g ≤ d.size → P d → P (outOfRange d)) {c : Chip} (hc : P c) :
    P (eraseAligned g addr c) :=
  mutating_keeps hf (fun _ => onAligned_keeps he ho) (fun _ => onAligned_keeps hd ho) hc

/-! ## The other commands (20 R70, R71, R73) -/

theorem statusWrite_keeps {effect : Chip → Chip} (hf : FlagFree P) (he : ∀ d, P d → P (effect d)) {c : Chip}
    (hc : P c) : P (statusWrite effect c) := by
  unfold statusWrite
  split
  · exact hf _ (effect c).wel _ (effect c).bp (effect c).armed _ (he c hc)
  · split
    · exact hc
    · exact hf _ _ _ (effect c).bp (effect c).armed _ (he c hc)

theorem protect_keeps (hf : FlagFree P) (bits : BitVec 3) {c : Chip} (hc : P c) : P (protect bits c) := by
  unfold protect
  split
  · exact hf c _ _ _ c.armed c.volatileArmed hc
  · exact hf c c.wel _ _ c.armed c.volatileArmed hc
  · exact hf c c.wel _ _ c.armed c.volatileArmed hc

theorem disarm_keeps (hf : FlagFree P) (i : Instr) {c : Chip} (hc : P c) : P (disarm i c) := by
  unfold disarm
  split
  · exact hc
  · exact hf c c.wel c.busy c.bp _ c.volatileArmed hc

/-! ## Every command -/

/-- A property that the array's operations and the loss of what is known keep, and in which no flag but the one that the
chip sleeps plays a part. -/
structure Kept (P : Chip → Prop) : Prop where
  flags : FlagFree P
  programByte : ∀ a w d, P d → P (programByte a w d)
  forgetByte : ∀ a d, P d → P (forgetByte a d)
  eraseRegion : ∀ lo hi d, P d → P (eraseRegion lo hi d)
  forgetRegion : ∀ lo hi d, P d → P (forgetRegion lo hi d)
  outOfRange : ∀ d, P d → P (outOfRange d)
  chipForget : ∀ d, P d → P (chipForget d)

theorem Kept.commandEffect (h : Kept P) {i : Instr}
    (hsleep : i = .powerDown → ∀ d, P d → P { d with asleep := .is true }) {c : Chip} (hc : P c) :
    P (commandEffect i c) := by
  have hcycle := h.flags.cycleFree
  have herase (g : Nat) (addr : Addr) : P (eraseAligned g addr c) :=
    eraseAligned_keeps hcycle (h.eraseRegion _ _) (h.forgetRegion _ _) (fun d _ => h.outOfRange d) hc
  cases i with
  | pageProgram addr wdata =>
    exact programPage_keeps wdata hcycle (fun _ => h.programByte _) (fun _ => h.forgetByte _)
      (fun d _ => h.outOfRange d) hc
  | sectorErase addr | blockErase32k addr | blockErase64k addr => exact herase _ addr
  | chipErase => exact mutating_keeps hcycle (h.eraseRegion _ _) (h.forgetRegion _ _) hc
  | writeSr1 wval =>
    exact statusWrite_keeps h.flags (fun d => h.flags d d.wel d.busy .any d.armed d.volatileArmed) hc
  | writeSr2 wval | writeSr3 wval => exact statusWrite_keeps h.flags (fun _ => id) hc
  | globalLock | globalUnlock => exact protect_keeps h.flags _ hc
  | powerDown => exact hsleep rfl _ (h.chipForget c hc)
  | resetDevice =>
    show P (deviceReset c)
    unfold deviceReset
    split
    · exact h.flags c _ _ _ _ _ hc
    · exact h.chipForget c hc
    · exact h.chipForget c hc
  | blockErase addr bop => exact h.chipForget c hc
  | writeEnable | writeDisable => exact h.flags c _ c.busy c.bp c.armed c.volatileArmed hc
  | volatileSrWriteEnable => exact h.flags c c.wel c.busy c.bp c.armed _ hc
  | releasePowerDown | releasePowerDownId => exact h.flags c c.wel _ c.bp c.armed c.volatileArmed hc
  | enableReset => exact h.flags c c.wel c.busy c.bp _ c.volatileArmed hc
  | mfrDeviceId | jedecId | uniqueId | readData _ _ | fastRead _ _ | readSr1 | readSr2 | readSr3 | reset | isBusy
  | isWriteEnabled | blockProtectBits | waitIdle => exact hc

/-- A kept property in which the bytes received and the power state play no part survives every transaction. -/
theorem Kept.chipDeselect (h : Kept P) (hbus : ∀ d rx asleep, P d → P { d with rx := rx, asleep := asleep }) {c : Chip}
    (hc : P c) : P (chipDeselect c) := by
  have hforget (asleep : Known Bool) : P { Sys2Proof.Machine.chipForget c with asleep := asleep } :=
    hbus _ c.rx _ (h.chipForget c hc)
  have hreceive (i : Instr) : P (receive i c) := by
    unfold receive
    split
    · exact h.commandEffect (fun _ d => hbus d d.rx _) (disarm_keeps h.flags i hc)
    · split
      · exact disarm_keeps h.flags i hc
      · split
        · exact hforget _
        · split
          · exact hforget _
          · exact hforget c.asleep
  unfold Sys2Proof.Machine.chipDeselect
  split
  next i _ => exact hbus _ [] (receive i c).asleep (hreceive i)
  next => exact hbus _ [] _ (h.chipForget c hc)

end Keeps

/-! ## The chip's identity (log entry 29) -/

/-- The chip's size and identification bytes, which no command is taken to change (log entry 29). -/
def Chip.identity (c : Chip) : Nat × Known (Byte × Byte × Byte) := (c.size, c.jedec)

theorem programByte_identity (a : Nat) (w : Byte) (c : Chip) : (programByte a w c).identity = c.identity := by
  unfold programByte
  split <;> rfl

theorem kept_identity (k : Nat × Known (Byte × Byte × Byte)) : Kept fun c => c.identity = k where
  flags _ _ _ _ _ _ h := h
  programByte a w d h := (programByte_identity a w d).trans h
  forgetByte _ _ h := h
  eraseRegion _ _ _ h := h
  forgetRegion _ _ _ h := h
  outOfRange _ h := h
  chipForget _ h := h

theorem chipDeselect_identity (c : Chip) : (chipDeselect c).identity = c.identity :=
  (kept_identity c.identity).chipDeselect (fun _ _ _ h => h) rfl

end Sys2Proof.Machine
end

section
/-! PROOFS. What a step of an instruction leaves unchanged, and what it does not depend on (10 R20 to R27; 20 R60, R62).
-/

namespace Sys2Proof.Machine

/-! ## The frame of a step (10 R20 to R26) -/

theorem envSelect_identity (e : Env) : (envSelect e).chip.identity = e.chip.identity := by
  unfold envSelect
  split <;> rfl

theorem envDeselect_identity (e : Env) : (envDeselect e).chip.identity = e.chip.identity := by
  unfold envDeselect
  split
  · exact chipDeselect_identity e.chip
  · rfl

theorem envExchange_identity (out : Byte) (e : Env) : (envExchange out e).2.chip.identity = e.chip.identity := by
  unfold envExchange
  split
  · obtain ⟨busy, wel, h⟩ := chipReply_chip (envDraw e).1 e.chip
    simp only [h]
    rfl
  · simp

/-- What the environment's side of a step leaves as it was. -/
structure EnvFrame (e f : Env) : Prop where
  contract : f.contract = e.contract
  identity : f.chip.identity = e.chip.identity
  free : e.contract = false → f.chip = e.chip

theorem EnvFrame.refl (e : Env) : EnvFrame e e := ⟨rfl, rfl, fun _ => rfl⟩

theorem envSelect_frame (e : Env) : EnvFrame e (envSelect e) :=
  ⟨envSelect_contract e, envSelect_identity e, fun h => by rw [envSelect_free h]⟩

theorem envDeselect_frame (e : Env) : EnvFrame e (envDeselect e) :=
  ⟨envDeselect_contract e, envDeselect_identity e, fun h => by rw [envDeselect_free h]⟩

theorem envExchange_frame (out : Byte) (e : Env) : EnvFrame e (envExchange out e).2 :=
  ⟨envExchange_contract out e, envExchange_identity out e, fun h => by rw [envExchange_free h, envDraw_chip]⟩

theorem execStep_env {i : Instr} {s t : State} (h : ExecStep i s t) : EnvFrame s.env t.env := by
  cases h with
  | select => exact envSelect_frame s.env
  | byte => exact envExchange_frame _ s.env
  | release => rw [elemFinish_env]; exact envDeselect_frame s.env
  | pause | delay | respond => exact .refl s.env

/-- The event a step adds to the trace is a response only past the last element. -/
theorem execStep_trace {i : Instr} {s t : State} (h : ExecStep i s t) :
    ∃ e, t.trace = s.trace ++ [e] ∧ ((expansionOf i)[s.upc]? ≠ none → ∀ rdata, e ≠ .rsp rdata) := by
  cases h with
  | select | byte | pause | delay => exact ⟨_, rfl, fun _ _ => nofun⟩
  | release => exact ⟨.csHigh, by simp, fun _ _ => nofun⟩
  | respond he => exact ⟨_, rfl, fun h => absurd he h⟩

theorem execStep_upc {i : Instr} {s t : State} (h : ExecStep i s t) :
    t.upc = s.upc ∨ t.upc = s.upc + 1 ∨ t.upc = 0 := by
  cases h with
  | select | byte | pause => exact .inl rfl
  | delay => exact .inr (.inl rfl)
  | respond => exact .inr (.inr rfl)
  | @release e => exact (elemFinish_upc e (csRelease s)).imp_right .inl

theorem execStep_seq {i : Instr} {s t : State} (h : ExecStep i s t) :
    t.seq = s.seq ∨ (t.seq = .idle ∧ (expansionOf i)[s.upc]? = none) := by
  cases h with
  | select | byte | pause | delay => exact .inl rfl
  | release => exact .inl (by simp)
  | respond he => exact .inr ⟨rfl, he⟩

theorem execStep_interfaces {i : Instr} {s t : State} (h : ExecStep i s t) :
    t.req = s.req ∧ t.reqIn = s.reqIn ∧ t.rst = s.rst := by
  cases h with
  | select | byte | pause | delay | respond => exact ⟨rfl, rfl, rfl⟩
  | release => simp

/-- Settles O21: each clause is one of the frame lemmas of `ExecStep`. -/
theorem instructionStepFrame : Obligations.InstructionStepFrame := by
  intro i s t h
  have hstep := execStep_of_exec h
  obtain ⟨hreq, hreqIn, hrst⟩ := execStep_interfaces hstep
  obtain ⟨e, htrace, -⟩ := execStep_trace hstep
  obtain ⟨hcontract, hident, hfree⟩ := execStep_env hstep
  obtain ⟨hsize, hjedec⟩ := Prod.mk.inj hident
  exact ⟨hreq, hreqIn, hrst, ⟨e, htrace⟩, execStep_upc hstep, (execStep_seq hstep).imp_right And.left, hcontract, hsize,
    hjedec, hfree⟩

/-- Settles O39: a reset adds CS+ or nothing, a wait nothing, an acceptance and a step of an instruction one event. -/
theorem traceOnlyGrows : Obligations.TraceOnlyGrows := by
  intro s t h
  rcases step_cases h with ⟨-, rfl⟩ | ⟨-, -, -, rfl⟩ | ⟨r, rest, -, -, -, rfl⟩ | ⟨-, -, hexec⟩
  · cases hc : s.csN with
    | true => exact ⟨[], by simp [hc], by simp⟩
    | false => exact ⟨[.csHigh], by simp [hc], by simp⟩
  · exact ⟨[], by simp, by simp⟩
  · exact ⟨[.req r], rfl, by simp⟩
  · obtain ⟨e, htrace, -⟩ := execStep_trace (execStep_of_exec hexec)
    exact ⟨[e], htrace, by simp⟩

/-! ## What a step does not depend on (10 R25, R27; 20 R62) -/

/-- Settles O40: the step taken depends on the position alone, so in both environments it is the same kind of step, and
the environment's part of it is the reply and the environment afterwards. -/
theorem whatIsSentDoesNotDependOnTheChip : Obligations.WhatIsSentDoesNotDependOnTheChip := by
  intro i s env sent
  obtain ⟨t, ht⟩ := exists_execStep i s
  have htwin {u : State} (hu : ExecStep i { s with env := env } u) := exec_of_execStep hu
  have hrun := exec_of_execStep ht
  cases ht with
  | select he ht hc hw => exact ⟨_, _, hrun, htwin (.select he ht hc hw), rfl, rfl, rfl, rfl, rfl, rfl, by simp⟩
  | @byte e u out he ht hc hb =>
    refine ⟨_, _, hrun, htwin (.byte he ht hc hb), rfl, rfl, rfl, rfl, rfl, ?_, by simp [sent]⟩
    simp only [xfer_rbuf]
    split <;> simp
  | @release e u he ht hc hb =>
    refine ⟨_, _, hrun, htwin (.release he ht hc hb), ?_⟩
    cases e with
    | txn | readStatus1 | delay => exact ⟨rfl, rfl, rfl, rfl, rfl, rfl, by simp⟩
    | waitIdle =>
      cases hbusy : busyFlag (s.rbuf.headD 0) <;> simp_all [elemFinish, afterPoll]
  | pause he hw => exact ⟨_, _, hrun, htwin (.pause he hw), rfl, rfl, rfl, rfl, rfl, rfl, by simp⟩
  | delay he => exact ⟨_, _, hrun, htwin (.delay he), rfl, rfl, rfl, rfl, rfl, rfl, by simp⟩
  | respond he => exact ⟨_, _, hrun, htwin (.respond he), rfl, rfl, rfl, rfl, rfl, rfl, by simp⟩

/-- Past its first element an operation that still has one answers with nothing (30 R90). -/
theorem answerOf_of_later_elem {i : Instr} {n : Nat} {e : Elem} (he : (expansionOf i)[n]? = some e) (hn : n ≠ 0) :
    answerOf i = .empty := by
  obtain ⟨n, rfl⟩ := Nat.exists_eq_succ_of_ne_zero hn
  cases i <;> simp [expansionOf] at he <;> rfl

/-- An operation that has a plain transaction does not answer from the status snapshot (30 R90). -/
theorem answerBytes_of_txn {i : Instr} {t : Txn} (h : .txn t ∈ expansionOf i) (rbuf : List Byte) (st st' : Byte) :
    answerBytes (answerOf i) rbuf st = answerBytes (answerOf i) rbuf st' := by
  cases i <;> simp [expansionOf] at h <;> rfl

/-- Two states of `i` that may differ in what an earlier operation left in `rbuf` and `st`: inside a transaction the
replies collected are the same, and past the first element so is the answer. -/
structure SameButLeftovers (i : Instr) (s u : State) : Prop where
  rest : u = { s with rbuf := u.rbuf, st := u.st }
  collected : s.csN = false → u.rbuf = s.rbuf
  answer : s.upc ≠ 0 → answerBytes (answerOf i) u.rbuf u.st = answerBytes (answerOf i) s.rbuf s.st

/-- Past its first element an operation that still has one answers the same whatever was left. -/
theorem answer_of_later_elem {i : Instr} {n : Nat} {e : Elem} (he : (expansionOf i)[n]? = some e) (hn : n ≠ 0)
    (rbuf rbuf' : List Byte) (st st' : Byte) :
    answerBytes (answerOf i) rbuf st = answerBytes (answerOf i) rbuf' st' := by
  rw [answerOf_of_later_elem he hn]; rfl

/-- Two such states take the same step, to two such states. -/
theorem SameButLeftovers.step {i : Instr} {s u t : State} (h : SameButLeftovers i s u) (hs : ExecStep i s t) :
    ∃ v, ExecStep i u v ∧ SameButLeftovers i t v := by
  obtain ⟨hrest, hcollected, hanswer⟩ := h
  rw [hrest] at hcollected hanswer ⊢
  generalize u.rbuf = rbuf, u.st = st at hcollected hanswer ⊢
  cases hs with
  | select he ht hc hw =>
    exact ⟨_, .select he ht hc hw, rfl, fun _ => rfl, fun hu => answer_of_later_elem he hu _ _ _ _⟩
  | byte he ht hc hb =>
    obtain rfl := hcollected hc
    exact ⟨_, .byte he ht hc hb, rfl, fun _ => rfl, fun hu => answer_of_later_elem he hu _ _ _ _⟩
  | @release e w he ht hc hb =>
    obtain rfl := hcollected hc
    refine ⟨_, .release he ht hc hb, ?_⟩
    cases e with
    | txn w =>
      exact ⟨rfl, nofun, fun _ => answerBytes_of_txn (List.mem_of_getElem? he) _ _ _⟩
    | readStatus1 => exact ⟨rfl, nofun, fun _ => rfl⟩
    | waitIdle => exact ⟨rfl, fun h => by simp at h, fun _ => rfl⟩
    | delay => cases ht
  | pause he hw => exact ⟨_, .pause he hw, rfl, hcollected, fun hu => answer_of_later_elem he hu _ _ _ _⟩
  | delay he =>
    have hu : s.upc ≠ 0 := by
      intro hu
      obtain ⟨e, w, he', hw⟩ := expansionOf_head i
      cases (hu ▸ he).symm.trans he'
      cases hw
    exact ⟨_, .delay he, rfl, hcollected, fun _ => hanswer hu⟩
  | respond he =>
    have hu : s.upc ≠ 0 := by
      intro hu
      obtain ⟨e, w, he', hw⟩ := expansionOf_head i
      cases (hu ▸ he).symm.trans he'
    rw [← hanswer hu]
    exact ⟨_, .respond he, rfl, hcollected, fun hu => absurd rfl hu⟩

/-- Settles O41: two states that differ in the leftovers alone go on doing so (`SameButLeftovers.step`), step by step.
-/
theorem earlierStatusIsNeverUsed : Obligations.EarlierStatusIsNeverUsed := by
  intro i n s rbuf st ⟨hc, hu, hn⟩
  have hsame : SameButLeftovers i s { s with rbuf := rbuf, st := st } :=
    ⟨rfl, fun h => by simp [hc] at h, fun h => absurd hu h⟩
  generalize { s with rbuf := rbuf, st := st } = u at hsame
  clear hc hu hn
  induction n generalizing s u with
  | zero =>
    obtain ⟨hrest, -, -⟩ := hsame
    rw [hrest]
    exact ⟨_, _, rfl, rfl, rfl, rfl, rfl, rfl, rfl, rfl⟩
  | succ n ih =>
    obtain ⟨t, ht⟩ := exists_execStep i s
    obtain ⟨v, hv, htv⟩ := hsame.step ht
    rw [execRun_succ (exec_of_execStep ht), execRun_succ (exec_of_execStep hv)]
    exact ih t v htv

end Sys2Proof.Machine
end

section
/-! PROOFS. Every step keeps the machine's invariant (10 R21 to R26; 40 R118; log entry 26). -/

namespace Sys2Proof.Machine

/-! ## The array (log entry 26) -/

theorem chipMemoryOk_iff (c : Chip) :
    chipMemoryOk c = true ↔ Memory.wf c.flash = true ∧ ∀ cell ∈ c.flash, isBlank c cell.1 = false := by
  simp [chipMemoryOk]

/-- Fewer known bytes over blank regions that are no larger where bytes are known: still in order. -/
theorem chipMemoryOk_of_subset {c d : Chip} (h : chipMemoryOk c = true) (hwf : Memory.wf d.flash = true)
    (hb : ∀ cell ∈ d.flash, cell ∈ c.flash ∧ (isBlank c cell.1 = false → isBlank d cell.1 = false)) :
    chipMemoryOk d = true := by
  obtain ⟨-, hblank⟩ := (chipMemoryOk_iff c).mp h
  refine (chipMemoryOk_iff d).mpr ⟨hwf, fun cell hcell => ?_⟩
  obtain ⟨hm, himp⟩ := hb cell hcell
  exact himp (hblank cell hm)

theorem chipMemoryOk_programByte (a : Nat) (w : Byte) {c : Chip} (h : chipMemoryOk c = true) :
    chipMemoryOk (programByte a w c) = true := by
  obtain ⟨hwf, hblank⟩ := (chipMemoryOk_iff c).mp h
  refine (chipMemoryOk_iff _).mpr ⟨programByte_wf a w hwf, fun cell hcell => ?_⟩
  have hmem : cell = (a, w) ∨ cell ∈ c.flash := by
    unfold programByte at hcell
    split at hcell
    · exact mem_cellSet hcell
    · exact .inr (List.mem_of_mem_filter hcell)
  rw [isBlank_programByte]
  rcases hmem with rfl | hmem
  · simp
  · simp [hblank cell hmem]

theorem chipMemoryOk_forgetByte (a : Nat) {c : Chip} (h : chipMemoryOk c = true) :
    chipMemoryOk (forgetByte a c) = true := by
  obtain ⟨hwf, -⟩ := (chipMemoryOk_iff c).mp h
  refine chipMemoryOk_of_subset h (cellForget_wf a (a + 1) hwf) fun cell hcell => ⟨List.mem_of_mem_filter hcell, ?_⟩
  intro hb
  simp [isBlank_forgetByte, hb]

theorem chipMemoryOk_eraseRegion (lo hi : Nat) {c : Chip} (h : chipMemoryOk c = true) :
    chipMemoryOk (eraseRegion lo hi c) = true := by
  obtain ⟨hwf, -⟩ := (chipMemoryOk_iff c).mp h
  refine chipMemoryOk_of_subset h (eraseRegion_wf lo hi hwf) fun cell hcell => ?_
  obtain ⟨hm, hout⟩ := List.mem_filter.mp hcell
  refine ⟨hm, fun hb => ?_⟩
  simp only [isBlank_eraseRegion, hb, Bool.false_or, inRegion]
  simpa only [Bool.not_eq_true'] using hout

theorem chipMemoryOk_forgetRegion (lo hi : Nat) {c : Chip} (h : chipMemoryOk c = true) :
    chipMemoryOk (forgetRegion lo hi c) = true := by
  obtain ⟨hwf, -⟩ := (chipMemoryOk_iff c).mp h
  exact chipMemoryOk_of_subset h (forgetRegion_wf lo hi hwf) fun cell hcell => ⟨List.mem_of_mem_filter hcell, id⟩

theorem kept_memoryOk : Kept fun c => chipMemoryOk c = true where
  flags _ _ _ _ _ _ h := h
  programByte a w _ h := chipMemoryOk_programByte a w h
  forgetByte a _ h := chipMemoryOk_forgetByte a h
  eraseRegion lo hi _ h := chipMemoryOk_eraseRegion lo hi h
  forgetRegion lo hi _ h := chipMemoryOk_forgetRegion lo hi h
  outOfRange _ _ := rfl
  chipForget _ _ := rfl

theorem envSelect_memoryOk {e : Env} (h : chipMemoryOk e.chip = true) : chipMemoryOk (envSelect e).chip = true := by
  unfold envSelect
  split <;> exact h

theorem envDeselect_memoryOk {e : Env} (h : chipMemoryOk e.chip = true) : chipMemoryOk (envDeselect e).chip = true := by
  unfold envDeselect
  split
  · exact kept_memoryOk.chipDeselect (fun _ _ _ h => h) h
  · exact h

theorem envCut_memoryOk {e : Env} (h : chipMemoryOk e.chip = true) : chipMemoryOk (envCut e).chip = true := by
  unfold envCut
  split
  · rfl
  · exact h

/-- An exchange leaves the array as it was: a reply settles no more than the busy bit and the latch. -/
theorem envExchange_array (out : Byte) (e : Env) :
    (envExchange out e).2.chip.flash = e.chip.flash ∧ (envExchange out e).2.chip.blank = e.chip.blank := by
  unfold envExchange
  split
  · obtain ⟨busy, wel, h⟩ := chipReply_chip (envDraw e).1 e.chip
    simp [h]
  · simp

theorem envExchange_memoryOk (out : Byte) {e : Env} (h : chipMemoryOk e.chip = true) :
    chipMemoryOk (envExchange out e).2.chip = true := by
  obtain ⟨hflash, hblank⟩ := envExchange_array out e
  unfold chipMemoryOk isBlank at h ⊢
  rwa [hflash, hblank]

theorem execStep_memoryOk {i : Instr} {s t : State} (h : ExecStep i s t) (hm : chipMemoryOk s.env.chip = true) :
    chipMemoryOk t.env.chip = true := by
  cases h with
  | select => exact envSelect_memoryOk hm
  | byte => exact envExchange_memoryOk _ hm
  | release => rw [elemFinish_env]; exact envDeselect_memoryOk hm
  | pause | delay | respond => exact hm

/-! ## The bracket discipline (40 R118) -/

theorem busLevel_append (tr : List Event) (e : Event) : busLevel (tr ++ [e]) = busEvent (busLevel tr) e := by
  simp [busLevel]

/-- Chip-select is high at a delay and past the last element. -/
theorem csN_of_runPosition {es : List Elem} {s : State} (h : runPosition es s = true)
    (he : (∃ u, es[s.upc]? = some (.delay u)) ∨ es[s.upc]? = none) : s.csN = true := by
  unfold runPosition at h
  rcases he with ⟨u, he⟩ | he
  · rw [he] at h
    exact (Bool.and_eq_true_iff.mp h).1
  · rw [he] at h
    simp only [Bool.and_eq_true] at h
    exact h.1.2

theorem execStep_busLevel {i : Instr} {s t : State} (h : ExecStep i s t) (hb : busLevel s.trace = some s.csN)
    (hp : runPosition (expansionOf i) s = true) : busLevel t.trace = some t.csN := by
  cases h with
  | select _ _ hc => rw [csAssert_trace, busLevel_append, hb, hc]; rfl
  | byte _ _ hc => rw [xfer_trace, busLevel_append, hb, xfer_csN, hc]; rfl
  | release _ _ hc =>
    rw [elemFinish_trace, elemFinish_csN, csRelease_trace, busLevel_append, hb, hc]
    rfl
  | pause _ hw =>
    have hc : s.csN = true := (Bool.and_eq_true_iff.mp hw).1
    show busLevel (s.trace ++ [.dly pollDelay]) = some s.csN
    rw [busLevel_append, hb, hc]
    rfl
  | @delay u he =>
    have hc := csN_of_runPosition hp (.inl ⟨u, he⟩)
    rw [advance_trace, delay_trace, busLevel_append, hb, advance_csN, delay_csN, hc]
    rfl
  | respond he =>
    have hc := csN_of_runPosition hp (.inr he)
    rw [respond_trace, busLevel_append, hb, respond_csN, hc]
    rfl

/-! ## The position (10 R24, R26) -/

/-- Between two elements the block stands at the start of the next one, or past the last. -/
theorem runPosition_between {es : List Elem} {s : State} (hc : s.csN = true) (hn : s.cnt = 0)
    (hu : s.upc ≤ es.length) : runPosition es s = true := by
  unfold runPosition
  split
  next e he => cases e <;> simp [elemPosition, hc, hn]
  next he =>
    have hlast : s.upc = es.length := le_antisymm hu (List.getElem?_eq_none_iff.mp he)
    simp [hlast, hc, hn]

theorem runPosition_of_elem {es : List Elem} {s : State} {e : Elem} (he : es[s.upc]? = some e) :
    runPosition es s = elemPosition e s := by
  unfold runPosition
  rw [he]

/-- With chip-select low the position is one inside the element's transaction. -/
theorem elemPosition_low {e : Elem} {t : Txn} {s : State} (ht : elemTxn e = some t) (hc : s.csN = false) :
    elemPosition e s = insideTxn t s := by
  cases e <;> cases ht <;> simp [elemPosition, hc]

theorem insideTxn_iff (t : Txn) (s : State) :
    insideTxn t s = true ↔ s.cnt ≤ (outBytes t).length ∧ s.rbuf.length = collectedCount t s.cnt ∧
      (s.env.contract = true → s.env.chip.rx = (outBytes t).take s.cnt) := by
  cases hc : s.env.contract <;> simp [insideTxn, hc, and_assoc]

theorem insideTxn_csAssert (t : Txn) (s : State) : insideTxn t (csAssert s) = true := by
  refine (insideTxn_iff t _).mpr ⟨Nat.zero_le _, ?_, fun hc => ?_⟩
  · unfold collectedCount
    split <;> simp
  · have hc : s.env.contract = true := by simpa using hc
    simp [envSelect, hc, chipSelect]

/-- One more byte done: one more reply collected if the byte is one of a read phase. -/
theorem collectedCount_succ (t : Txn) (k : Nat) :
    collectedCount t (k + 1) = collectedCount t k + (if collects t k then 1 else 0) := by
  rcases t with ⟨opc, addr, data⟩
  cases data with
  | none => rfl
  | write bytes => rfl
  | read n =>
    simp only [collectedCount, collects, decide_eq_true_eq]
    split <;> omega

theorem insideTxn_xfer {t : Txn} {s : State} {out : Byte} (hb : (outBytes t)[s.cnt]? = some out)
    (h : insideTxn t s = true) : insideTxn t (xfer out (collects t s.cnt) s) = true := by
  obtain ⟨-, hlen, hrx⟩ := (insideTxn_iff t s).mp h
  obtain ⟨hlt, hout⟩ := List.getElem?_eq_some_iff.mp hb
  refine (insideTxn_iff t _).mpr ⟨hlt, ?_, fun hc => ?_⟩
  · rw [xfer_rbuf, xfer_cnt, collectedCount_succ]
    split <;> simp [hlen]
  · have hc : s.env.contract = true := by simpa using hc
    have hchip : (envExchange out s.env).2.chip.rx = s.env.chip.rx ++ [out] := by simp [envExchange, hc]
    rw [xfer_env, xfer_cnt, hchip, hrx hc, List.take_add_one, hb, Option.toList_some]

/-- After the CS+ of its transaction an element is over, or it is a polling loop before its delay. -/
theorem runPosition_release {i : Instr} {s : State} {e : Elem} {t : Txn} (he : (expansionOf i)[s.upc]? = some e)
    (ht : elemTxn e = some t) (hb : (outBytes t)[s.cnt]? = none) (hp : insideTxn t s = true) :
    runPosition (expansionOf i) (elemFinish e (csRelease s)) = true := by
  have hnext : s.upc + 1 ≤ (expansionOf i).length := (List.getElem?_eq_some_iff.mp he).1
  cases e with
  | txn u => exact runPosition_between rfl rfl hnext
  | readStatus1 => exact runPosition_between rfl rfl hnext
  | delay u => cases ht
  | waitIdle =>
    cases ht
    simp only [elemFinish]
    rcases afterPoll_cases (csRelease s) with ⟨hbusy, h⟩ | ⟨-, h⟩
    · have hcnt : s.cnt = (outBytes statusTxn).length :=
        le_antisymm ((insideTxn_iff _ s).mp hp).1 (List.getElem?_eq_none_iff.mp hb)
      rw [h, runPosition_of_elem (e := .waitIdle) (by simpa using he)]
      show (s.cnt == 0 || (s.cnt == (outBytes statusTxn).length && busyFlag (takeStatus (csRelease s)).st)) = true
      rw [hbusy, hcnt]
      rfl
    · rw [h]
      exact runPosition_between rfl rfl hnext

theorem execStep_runPosition {i : Instr} {s t : State} (h : ExecStep i s t)
    (hp : runPosition (expansionOf i) s = true) (hrun : t.seq = .run) : runPosition (expansionOf i) t = true := by
  cases h with
  | select he ht =>
    rw [runPosition_of_elem (by simpa using he), elemPosition_low ht rfl]
    exact insideTxn_csAssert _ s
  | byte he ht hc hb =>
    rw [runPosition_of_elem he, elemPosition_low ht hc] at hp
    rw [runPosition_of_elem (by simpa using he), elemPosition_low (s := xfer _ _ s) ht hc]
    exact insideTxn_xfer hb hp
  | release he ht hc hb =>
    rw [runPosition_of_elem he, elemPosition_low ht hc] at hp
    exact runPosition_release he ht hb hp
  | pause he hw =>
    exact runPosition_between (Bool.and_eq_true_iff.mp hw).1 rfl (Nat.le_of_lt (List.getElem?_eq_some_iff.mp he).1)
  | @delay u he =>
    have hc := csN_of_runPosition hp (.inl ⟨u, he⟩)
    exact runPosition_between hc rfl (List.getElem?_eq_some_iff.mp he).1
  | respond => cases hrun

/-! ## The invariant -/

/-- Only the response ends an operation, with chip-select high and the position at 0. -/
theorem execStep_idle {i : Instr} {s t : State} (h : ExecStep i s t) (hs : s.seq = .run)
    (hp : runPosition (expansionOf i) s = true) (ht : t.seq = .idle) : t.csN = true ∧ t.upc = 0 ∧ t.cnt = 0 := by
  cases h with
  | select | byte | pause | delay => cases hs.symm.trans ht
  | release => cases hs.symm.trans (by simpa using ht)
  | respond he =>
    have hc := csN_of_runPosition hp (.inr he)
    exact ⟨hc, rfl, rfl⟩

theorem execStep_inv {s t : State} (h : ExecStep (requestInstr s.req) s t) (hs : s.seq = .run) (hinv : s.Inv) :
    t.Inv := by
  obtain ⟨hbus, -, hpos, hmem⟩ := hinv
  have hpos := hpos hs
  obtain ⟨hreq, -, -⟩ := execStep_interfaces h
  exact ⟨execStep_busLevel h hbus hpos, execStep_idle h hs hpos, hreq ▸ execStep_runPosition h hpos,
    execStep_memoryOk h hmem⟩

/-- A reset releases chip-select, with CS+ if it was low. -/
theorem blockReset_inv {s : State} (hinv : s.Inv) : (blockReset s).Inv := by
  obtain ⟨hbus, -, -, hmem⟩ := hinv
  refine ⟨?_, fun _ => ⟨rfl, rfl, rfl⟩, nofun, ?_⟩
  · cases hc : s.csN with
    | true => simpa [hc] using hbus
    | false => simp [hc, busLevel_append, hbus, busEvent]
  · cases hc : s.csN with
    | true => simpa [hc] using hmem
    | false => simpa [hc] using envCut_memoryOk hmem

/-- An acceptance finds chip-select high and puts the block at the start of the operation. -/
theorem accept_inv {s : State} (r : Request) (rest : List Request) (hs : s.seq = .idle) (hinv : s.Inv) :
    (accept r { s with reqIn := rest }).Inv := by
  obtain ⟨hbus, hidle, -, hmem⟩ := hinv
  obtain ⟨hc, -, -⟩ := hidle hs
  refine ⟨?_, nofun, fun _ => runPosition_between hc rfl (Nat.zero_le _), hmem⟩
  rw [accept_trace, busLevel_append, hbus, accept_csN, hc]
  rfl

/-- Settles O38: a reset, a wait, an acceptance and every step of the latched instruction keep the invariant. -/
theorem everyStepKeepsTheInvariant : Obligations.EveryStepKeepsTheInvariant := by
  intro s t hinv h
  rcases step_cases h with ⟨-, rfl⟩ | ⟨-, -, -, rfl⟩ | ⟨r, rest, -, hs, -, rfl⟩ | ⟨-, hs, hexec⟩
  · exact blockReset_inv (s := rstTaken s) hinv
  · exact hinv
  · exact accept_inv (s := rstTaken s) r rest hs hinv
  · exact execStep_inv (s := rstTaken s) (execStep_of_exec hexec) hs hinv

end Sys2Proof.Machine
end

section
/-! PROOFS. Whole operations with their polling loops, from start to response (30 R90; 41 R138; 20 R60). -/

namespace Sys2Proof.Machine

/-! ## What an element leaves, in terms of the bus -/

/-- The state after an element that did `q` on the bus and left these replies and this snapshot: chip-select is high and
the next element is next. -/
def afterBus (s : State) (q : BusRun) (rbuf : List Byte) (st : Byte) : State :=
  { s with csN := true, upc := s.upc + 1, cnt := 0, rbuf := rbuf, st := st, trace := s.trace ++ q.events, env := q.env }

theorem outBytes_addressed (op : Byte) (addr : Addr) (data : Phase) :
    outBytes ⟨op, some addr, data⟩ =
      [op, addr.extractLsb' 16 8, addr.extractLsb' 8 8, addr.extractLsb' 0 8] ++ phaseBytes data := by
  simp [outBytes, headerBytes, addrBytes_addr]

theorem outBytes_addressed_length (op : Byte) (addr : Addr) (data : Phase) :
    (outBytes ⟨op, some addr, data⟩).length = 4 + (phaseBytes data).length := by
  simp [outBytes_addressed]
  omega

theorem wholeElem_txn (k : Nat) (t : Txn) (s : State) :
    wholeElem k (.txn t) s =
      afterBus s (busTxn (outBytes t) s.env) (txnResult t (busTxn (outBytes t) s.env).replies) s.st := rfl

theorem wholeElem_readStatus1 (k : Nat) (s : State) :
    wholeElem k .readStatus1 s =
      afterBus s (busTxn [0x05, 0x00] s.env) [(busTxn [0x05, 0x00] s.env).replies.getD 1 0]
        ((busTxn [0x05, 0x00] s.env).replies.getD 1 0) := rfl

/-- A round that found busy leaves the block at the start of the loop, one status read and one delay later. -/
theorem busyRound_eq (s : State) :
    busyRound s =
      { s with
        csN := true
        cnt := 0
        rbuf := [(busTxn [0x05, 0x00] s.env).replies.getD 1 0]
        st := (busTxn [0x05, 0x00] s.env).replies.getD 1 0
        trace := s.trace ++ (busTxn [0x05, 0x00] s.env).events ++ [.dly 1]
        env := (busTxn [0x05, 0x00] s.env).env } := rfl

/-- The whole loop does `busPoll` on the bus, and its last reply is collected and taken as the snapshot. -/
theorem wholePoll_eq (k : Nat) (s : State) :
    wholePoll k s =
      afterBus s (busPoll k s.env) [(busPoll k s.env).replies.getD 1 0] ((busPoll k s.env).replies.getD 1 0) := by
  induction k generalizing s with
  | zero => rfl
  | succ k ih =>
    have hround : wholePoll (k + 1) s = wholePoll k (busyRound s) := rfl
    rw [hround, ih, busyRound_eq]
    simp [afterBus, busPoll]

/-- Every element ends with chip-select high, at the start of the next one. -/
theorem wholeElem_next (k : Nat) (e : Elem) {s : State} (hc : s.csN = true) :
    (wholeElem k e s).csN = true ∧ (wholeElem k e s).upc = s.upc + 1 ∧ (wholeElem k e s).cnt = 0 := by
  cases e with
  | txn t => exact ⟨rfl, rfl, rfl⟩
  | readStatus1 => exact ⟨rfl, rfl, rfl⟩
  | delay u => exact ⟨hc, rfl, rfl⟩
  | waitIdle =>
    rw [wholeElem, wholePoll_eq]
    exact ⟨rfl, rfl, rfl⟩

section Poll
variable {i : Instr} {s : State}

/-! ## The polling loop (41 R138) -/

/-- A status read of the loop that finds busy, and the delay after it, are one round. -/
theorem execRun_busyRound (he : (expansionOf i)[s.upc]? = some .waitIdle) (hc : s.csN = true) (hn : s.cnt = 0)
    (hb : busyFlag (statusOf s.env) = true) : execRun i 5 s = .next (busyRound s) := by
  have hread : execRun i (txnSteps statusTxn) s = .next (takeStatus (wholeTxn statusTxn s)) := by
    rw [execRun_txn he rfl hc fun _ => awaitsDelay_of_cnt_zero hn]
    exact congrArg _ (if_pos hb)
  have hpause : exec i (takeStatus (wholeTxn statusTxn s)) = .next (busyRound s) :=
    exec_of_execStep (.pause he rfl)
  exact (execRun_add (n := 1) hread).trans (execRun_succ hpause)

/-- A status read of the loop that finds idle ends it. -/
theorem execRun_idleRead (he : (expansionOf i)[s.upc]? = some .waitIdle) (hc : s.csN = true) (hn : s.cnt = 0)
    (hb : busyFlag (statusOf s.env) = false) : execRun i (txnSteps statusTxn) s = .next (wholePoll 0 s) := by
  rw [execRun_txn he rfl hc fun _ => awaitsDelay_of_cnt_zero hn]
  exact congrArg _ (if_neg (by rw [Bool.not_eq_true]; exact hb))

/-- `k` rounds that find busy, then a read that finds idle, are the whole loop. -/
theorem execRun_wholePoll (k : Nat) (he : (expansionOf i)[s.upc]? = some .waitIdle) (hc : s.csN = true)
    (hn : s.cnt = 0) (hp : idleAfter k s.env = true) :
    execRun i (elemSteps k .waitIdle) s = .next (wholePoll k s) := by
  induction k generalizing s with
  | zero =>
    have hidle : busyFlag (statusOf s.env) = false := by simpa [idleAfter] using hp
    simpa [elemSteps] using execRun_idleRead he hc hn hidle
  | succ k ih =>
    obtain ⟨hbusy, hrest⟩ : busyFlag (statusOf s.env) = true ∧ idleAfter k (txnEnv statusTxn s.env) = true := by
      simpa [idleAfter] using hp
    have hsteps : elemSteps (k + 1) .waitIdle = 5 + elemSteps k .waitIdle := by
      simp only [elemSteps]
      show (k + 1) * 5 + 4 = 5 + (k * 5 + 4)
      omega
    rw [hsteps, execRun_add (execRun_busyRound he hc hn hbusy)]
    exact ih (s := busyRound s) he rfl rfl hrest

end Poll

/-! ## Expansions and operations (20 R60; 30 R90) -/

/-- An element runs in its own number of steps to its end; a polling loop when it finds busy `k` times and then idle. -/
theorem execRun_elem {i : Instr} {s : State} {e : Elem} (k : Nat) (he : (expansionOf i)[s.upc]? = some e)
    (hc : s.csN = true) (hn : s.cnt = 0) (hp : e = .waitIdle → idleAfter k s.env = true) :
    execRun i (elemSteps k e) s = .next (wholeElem k e s) := by
  by_cases hw : e = .waitIdle
  · subst hw
    exact execRun_wholePoll k he hc hn (hp rfl)
  · exact execRun_wholeElem k he hc hw

/-- From the start of an element with `es` still to do, the block does them one after the other and stands past the
last. -/
theorem execRun_elems {i : Instr} (k : Nat) (es : List Elem) {s : State} (hd : (expansionOf i).drop s.upc = es)
    (hc : s.csN = true) (hn : s.cnt = 0) (hp : pollsEnd k es s = true) :
    execRun i (es.map (elemSteps k)).sum s = .next (wholeElems k es s) ∧
      (wholeElems k es s).upc = s.upc + es.length := by
  induction es generalizing s with
  | nil => exact ⟨rfl, rfl⟩
  | cons e rest ih =>
    obtain ⟨hpoll, hrest⟩ : (if e = .waitIdle then idleAfter k s.env else true) = true ∧
        pollsEnd k rest (wholeElem k e s) = true := Bool.and_eq_true_iff.mp hp
    have he : (expansionOf i)[s.upc]? = some e := by rw [← List.head?_drop, hd, List.head?_cons]
    obtain ⟨hc', hu', hn'⟩ := wholeElem_next k e hc
    have hd' : (expansionOf i).drop (wholeElem k e s).upc = rest := by rw [hu', ← List.tail_drop, hd, List.tail_cons]
    obtain ⟨hrun, hend⟩ := ih hd' hc' hn' hrest
    rw [List.map_cons, List.sum_cons, execRun_add (execRun_elem k he hc hn fun h => by rwa [if_pos h] at hpoll)]
    exact ⟨hrun, by rw [wholeElems, hend, hu', List.length_cons]; omega⟩

/-- Settles O25: the elements run to their end (`execRun_elems`), and the step past the last is the response. -/
theorem everyOperationRunsToItsResponse : Obligations.EveryOperationRunsToItsResponse := by
  intro i k s ⟨hc, hu, hn⟩ hp
  obtain ⟨hrun, hend⟩ := execRun_elems k (expansionOf i) (by rw [hu, List.drop_zero]) hc hn hp
  have hresponse : exec i (wholeElems k (expansionOf i) s) = .next (wholeOperation k i s) :=
    exec_respond (by rw [hend, hu, Nat.zero_add, List.getElem?_length])
  rw [operationSteps, execRun_add hrun, execRun_succ hresponse, execRun]

/-! ## Operations of one transaction (41 R135 to R137; 42 R150 to R153; 43 R160, R161; 46 R200 to R206) -/

/-- Settles O26: each is the one transaction of its opcode byte (`execRun_singleTxn`), which reads nothing. -/
theorem singleByteOperationsSendOneByte : Obligations.SingleByteOperationsSendOneByte := by
  intro i op s hi hs r
  have hone {j : Instr} {c : Command} (hj : expansionOf j = [.txn (plainTxn c)]) (ha : answerOf j = .empty)
      (ht : plainTxn c = ⟨op, none, .none⟩) :
      execRun j 4 s = .next { s with
        seq := .idle, rbuf := [], trace := s.trace ++ [.csLow, .xfer op r.1, .csHigh, .rsp []],
        env := envDeselect r.2 } := by
    have hrun := execRun_singleTxn hj hs
    rw [ht, ha] at hrun
    refine hrun.trans ?_
    simp only [List.append_assoc]
    rfl
  simp only [List.mem_cons, Prod.mk.injEq, List.not_mem_nil, or_false] at hi
  rcases hi with ⟨rfl, rfl⟩ | ⟨rfl, rfl⟩ | ⟨rfl, rfl⟩ | ⟨rfl, rfl⟩ | ⟨rfl, rfl⟩ | ⟨rfl, rfl⟩ | ⟨rfl, rfl⟩ | ⟨rfl, rfl⟩ |
      ⟨rfl, rfl⟩ <;>
    exact hone rfl rfl rfl

/-- From its start, an operation that reads `n` bytes after the header of `t` and answers with the replies responds with
the replies to these. -/
theorem execRun_readTxn {i : Instr} {t : Txn} {n : Nat} {s : State} (hi : expansionOf i = [.txn t])
    (ha : answerOf i = .replies) (ht : t.data = .read n) (hs : s.AtStart) :
    ((busTxn (outBytes t) s.env).replies.drop (headerBytes t).length).length = n ∧
    execRun i ((headerBytes t).length + n + 3) s = .next { s with
      seq := .idle
      rbuf := (busTxn (outBytes t) s.env).replies.drop (headerBytes t).length
      trace := s.trace ++ (busTxn (outBytes t) s.env).events ++
        [.rsp ((busTxn (outBytes t) s.env).replies.drop (headerBytes t).length)]
      env := (busTxn (outBytes t) s.env).env } := by
  have hlen : (outBytes t).length = (headerBytes t).length + n := by simp [outBytes, ht, phaseBytes]
  have hresult (ins : List Byte) : txnResult t ins = ins.drop (headerBytes t).length := by simp [txnResult, ht]
  have hrun := execRun_singleTxn hi hs
  rw [txnSteps, hlen, ha] at hrun
  simp only [hresult, answerBytes] at hrun
  refine ⟨?_, hrun⟩
  rw [List.length_drop, busTxn, exchangeAll_length, hlen]
  omega

/-- Settles O27: each is one read after a bare opcode (`execRun_readTxn`). -/
theorem identifyReturnsEveryReply : Obligations.IdentifyReturnsEveryReply := by
  intro i op n s hi hs q
  have hone (hj : expansionOf i = [.txn ⟨op, none, .read n⟩]) (ha : answerOf i = .replies) :
      q.replies.length = n + 1 ∧ execRun i (n + 4) s = .next { s with
        seq := .idle, rbuf := q.replies.tail, trace := s.trace ++ q.events ++ [.rsp q.replies.tail],
        env := q.env } := by
    obtain ⟨-, hrun⟩ := execRun_readTxn hj ha rfl hs
    refine ⟨(exchangeAll_length _ _).trans (by simp), ?_⟩
    rw [show n + 4 = 1 + n + 3 by omega, ← List.drop_one]
    exact hrun
  simp only [List.mem_cons, Prod.mk.injEq, List.not_mem_nil, or_false] at hi
  rcases hi with ⟨rfl, rfl, rfl⟩ | ⟨rfl, rfl, rfl⟩ | ⟨rfl, rfl, rfl⟩ | ⟨rfl, rfl, rfl⟩ <;> exact hone rfl rfl

/-- Settles O28: each is one read after the opcode and the address (`execRun_readTxn`). -/
theorem readsReturnExactlyLenReplies : Obligations.ReadsReturnExactlyLenReplies := by
  intro addr len i op s hi hs q
  have hone (hj : expansionOf i = [.txn ⟨op, some addr, .read len⟩]) (ha : answerOf i = .replies) :
      (q.replies.drop 4).length = len ∧ execRun i (len + 7) s = .next { s with
        seq := .idle, rbuf := q.replies.drop 4, trace := s.trace ++ q.events ++ [.rsp (q.replies.drop 4)],
        env := q.env } := by
    have hrun := execRun_readTxn hj ha rfl hs
    rw [outBytes_addressed] at hrun
    rw [show len + 7 = 4 + len + 3 by omega]
    exact hrun
  simp only [List.mem_cons, Prod.mk.injEq, List.not_mem_nil, or_false] at hi
  rcases hi with ⟨rfl, rfl⟩ | ⟨rfl, rfl⟩ <;> exact hone rfl rfl

/-! ## Operations with a status read (41 R131 to R134, R138; 44 R174; 45 R185, R190) -/

theorem bpByte_eq (s : Byte) : bpByte s = BitVec.setWidth 8 (s.extractLsb' 2 3) := by
  revert s
  decide

/-- Settles O29: each is one status read and its answer; the protect bits are shifted and masked, which is the
extraction (`bpByte_eq`). -/
theorem statusQueriesAnswerFromAFreshRead : Obligations.StatusQueriesAnswerFromAFreshRead := by
  intro s hs q v after
  have hone {i : Instr} {a : Answer} (hi : expansionOf i = [.readStatus1]) (ha : answerOf i = a) :
      execRun i 5 s = .next (after (answerBytes a [v] v)) := by
    have hrun := everyOperationRunsToItsResponse i 0 s hs (by rw [hi]; rfl)
    rw [operationSteps, wholeOperation, hi, ha] at hrun
    refine hrun.trans ?_
    obtain ⟨hc, hu, hn⟩ := hs
    cases s
    cases hc; cases hu; cases hn
    rfl
  refine ⟨hone rfl rfl, hone rfl rfl, hone rfl rfl, ?_⟩
  rw [← bpByte_eq]
  exact hone rfl rfl

/-- From its start, an operation of the W-P skeleton sends {06}, its command, polls and responds empty (44 R174). -/
theorem execRun_writeThenPoll {i : Instr} {t : Txn} {k : Nat} {s : State} (hi : expansionOf i = writeThenPoll t)
    (ha : answerOf i = .empty) (hs : s.AtStart)
    (hp : idleAfter k (busTxn (outBytes t) (busTxn [0x06] s.env).env).env = true) :
    execRun i ((outBytes t).length + 5 * k + 10) s = .next { s with
      seq := .idle
      rbuf := [(busPoll k (busTxn (outBytes t) (busTxn [0x06] s.env).env).env).replies.getD 1 0]
      st := (busPoll k (busTxn (outBytes t) (busTxn [0x06] s.env).env).env).replies.getD 1 0
      trace := s.trace ++ (busTxn [0x06] s.env).events ++ (busTxn (outBytes t) (busTxn [0x06] s.env).env).events ++
        (busPoll k (busTxn (outBytes t) (busTxn [0x06] s.env).env).env).events ++ [.rsp []]
      env := (busPoll k (busTxn (outBytes t) (busTxn [0x06] s.env).env).env).env } := by
  have hrun := everyOperationRunsToItsResponse i k s hs (by
    rw [hi]
    exact (Bool.and_true _).trans hp)
  have hsteps : operationSteps k i = (outBytes t).length + 5 * k + 10 := by
    rw [operationSteps, hi]
    show 3 + ((outBytes t).length + 2 + (k * 5 + 4 + 0)) + 1 = _
    omega
  rw [hsteps, wholeOperation, hi, ha] at hrun
  simp only [writeThenPoll, wholeElems, wholeElem, wholePoll_eq] at hrun
  refine hrun.trans ?_
  obtain ⟨hc, hu, hn⟩ := hs
  cases s
  cases hc; cases hu; cases hn
  rfl

/-- Settles O32: each is the W-P skeleton (`execRun_writeThenPoll`) around its own bytes. -/
theorem programAndEraseFollowTheSkeleton : Obligations.ProgramAndEraseFollowTheSkeleton := by
  intro i outs k s addr wdata bop a hi hs q p w hp
  have hone {j : Instr} {t : Txn} (hj : expansionOf j = writeThenPoll t) (ha : answerOf j = .empty)
      (ht : outBytes t = outs) :
      execRun j (outs.length + 5 * k + 10) s = .next { s with
        seq := .idle
        rbuf := [w.replies.getD 1 0]
        st := w.replies.getD 1 0
        trace := s.trace ++ q.events ++ p.events ++ w.events ++ [.rsp []]
        env := w.env } := by
    subst ht
    exact execRun_writeThenPoll hj ha hs hp
  simp only [List.mem_cons, Prod.mk.injEq, List.not_mem_nil, or_false] at hi
  rcases hi with ⟨rfl, rfl⟩ | ⟨rfl, rfl⟩ | ⟨rfl, rfl⟩ | ⟨rfl, rfl⟩ | ⟨rfl, rfl⟩ | ⟨rfl, rfl⟩
  · exact hone rfl rfl (outBytes_addressed _ addr _)
  · exact hone rfl rfl (outBytes_addressed _ addr _)
  · exact hone rfl rfl (outBytes_addressed _ addr _)
  · exact hone rfl rfl (outBytes_addressed _ addr _)
  · exact hone rfl rfl (outBytes_addressed _ addr _)
  · exact hone rfl rfl rfl

/-- Settles O33: the three elements of the register-write path and the response, whichever register is written. -/
theorem statusWritesPollBeforeAndNotAfter : Obligations.StatusWritesPollBeforeAndNotAfter := by
  intro i wop wval k s hi hs q w p hp
  have hone {j : Instr} (hj : expansionOf j = [writeEnableElem, .waitIdle, .txn ⟨wop, none, .write [wval]⟩])
      (ha : answerOf j = .empty) :
      execRun j (5 * k + 12) s = .next { s with
        seq := .idle
        rbuf := []
        st := w.replies.getD 1 0
        trace := s.trace ++ q.events ++ w.events ++ p.events ++ [.rsp []]
        env := p.env } := by
    have hrun := everyOperationRunsToItsResponse j k s hs (by
      rw [hj]
      exact (Bool.and_true _).trans hp)
    have hsteps : operationSteps k j = 5 * k + 12 := by
      rw [operationSteps, hj]
      show 3 + (k * 5 + 4 + (4 + 0)) + 1 = _
      omega
    rw [hsteps, wholeOperation, hj, ha] at hrun
    simp only [wholeElems, wholeElem, wholePoll_eq] at hrun
    refine hrun.trans ?_
    obtain ⟨hc, hu, hn⟩ := hs
    cases s
    cases hc; cases hu; cases hn
    rfl
  simp only [List.mem_cons, Prod.mk.injEq, List.not_mem_nil, or_false] at hi
  rcases hi with ⟨rfl, rfl⟩ | ⟨rfl, rfl⟩ | ⟨rfl, rfl⟩ <;> exact hone rfl rfl

/-- Settles O34: the loop alone (`wholePoll_eq`) and the response. -/
theorem waitIdlePollsUntilIdle : Obligations.WaitIdlePollsUntilIdle := by
  intro k s hs hp w
  have hrun := everyOperationRunsToItsResponse .waitIdle k s hs ((Bool.and_true _).trans hp)
  have hsteps : operationSteps k .waitIdle = 5 * k + 5 := by
    show k * 5 + 4 + 0 + 1 = _
    omega
  rw [hsteps, wholeOperation] at hrun
  simp only [expansionOf, wholeElems, wholeElem, wholePoll_eq] at hrun
  refine hrun.trans ?_
  obtain ⟨hc, hu, hn⟩ := hs
  cases s
  cases hc; cases hu; cases hn
  rfl

/-! ## A chip that stays busy (60 R235) -/

/-- `n` steps of `i` lead from `s` to `t`, stay at one element of the operation and answer nothing. -/
structure PollsOn (i : Instr) (n : Nat) (s t : State) : Prop where
  run : execRun i n s = .next t
  upc : t.upc = s.upc
  seq : t.seq = s.seq
  trace : ∃ events, t.trace = s.trace ++ events ∧ events.length = n ∧ ∀ rdata, .rsp rdata ∉ events

theorem PollsOn.refl (i : Instr) (s : State) : PollsOn i 0 s s := ⟨rfl, rfl, rfl, [], by simp, rfl, by simp⟩

theorem PollsOn.trans {i : Instr} {m n : Nat} {s t u : State} (h : PollsOn i m s t) (k : PollsOn i n t u) :
    PollsOn i (m + n) s u := by
  obtain ⟨es, hes, hlen, hsilent⟩ := h.trace
  obtain ⟨fs, hfs, klen, ksilent⟩ := k.trace
  refine ⟨(execRun_add h.run).trans k.run, k.upc.trans h.upc, k.seq.trans h.seq, es ++ fs, ?_, ?_, ?_⟩
  · rw [hfs, hes, List.append_assoc]
  · rw [List.length_append, hlen, klen]
  · exact fun rdata hm => (List.mem_append.mp hm).elim (hsilent rdata) (ksilent rdata)

/-- A step that stays at a polling loop. -/
theorem PollsOn.step {i : Instr} {s t : State} (he : (expansionOf i)[s.upc]? = some .waitIdle) (h : ExecStep i s t)
    (hu : t.upc = s.upc) : PollsOn i 1 s t := by
  obtain ⟨e, htrace, hsilent⟩ := execStep_trace h
  refine ⟨execRun_succ (exec_of_execStep h), hu, ?_, [e], htrace, rfl, fun rdata hm => ?_⟩
  · exact (execStep_seq h).resolve_right fun ⟨_, hnone⟩ => by rw [he] at hnone; cases hnone
  · exact hsilent (by simp [he]) rdata (List.mem_singleton.mp hm).symm

section Round
variable {i : Instr} {s : State}

/-- The steps of a round that finds busy, up to its delay, stay at the loop. -/
theorem pollsOn_insideRound (he : (expansionOf i)[s.upc]? = some .waitIdle) (hc : s.csN = true) (hn : s.cnt = 0)
    (hb : busyFlag (statusOf s.env) = true) {n : Nat} (hlt : n < 5) : ∃ t, PollsOn i n s t := by
  have hlow : PollsOn i 1 s (csAssert s) :=
    .step he (.select he rfl hc fun _ => awaitsDelay_of_cnt_zero hn) rfl
  have hopcode : PollsOn i 1 (csAssert s) (xfer 0x05 false (csAssert s)) :=
    .step he (.byte (t := statusTxn) he rfl rfl rfl) rfl
  have hdata : PollsOn i 1 (xfer 0x05 false (csAssert s)) (xfer 0x00 true (xfer 0x05 false (csAssert s))) :=
    .step he (.byte (t := statusTxn) he rfl rfl rfl) rfl
  have hstay : afterPoll (csRelease (xfer 0x00 true (xfer 0x05 false (csAssert s)))) =
      takeStatus (csRelease (xfer 0x00 true (xfer 0x05 false (csAssert s)))) := if_pos hb
  have hhigh : PollsOn i 1 (xfer 0x00 true (xfer 0x05 false (csAssert s))) _ :=
    .step he (.release (t := statusTxn) he rfl rfl rfl) ((congrArg State.upc hstay).trans rfl)
  interval_cases n
  · exact ⟨_, .refl i s⟩
  · exact ⟨_, hlow⟩
  · exact ⟨_, hlow.trans hopcode⟩
  · exact ⟨_, (hlow.trans hopcode).trans hdata⟩
  · exact ⟨_, ((hlow.trans hopcode).trans hdata).trans hhigh⟩

/-- A round that finds busy stays at the loop. -/
theorem pollsOn_busyRound (he : (expansionOf i)[s.upc]? = some .waitIdle) (hc : s.csN = true) (hn : s.cnt = 0)
    (hb : busyFlag (statusOf s.env) = true) : PollsOn i 5 s (busyRound s) := by
  refine ⟨execRun_busyRound he hc hn hb, rfl, rfl, (busTxn [0x05, 0x00] s.env).events ++ [.dly 1], ?_, rfl, ?_⟩
  · rw [busyRound_eq, List.append_assoc]
  · simp [busTxn, exchangeAll]

theorem pollsOn_of_busyFor {k n : Nat} (he : (expansionOf i)[s.upc]? = some .waitIdle) (hc : s.csN = true)
    (hn : s.cnt = 0) (hb : busyFor k s.env = true) (hle : n ≤ 5 * k) : ∃ t, PollsOn i n s t := by
  induction k generalizing n s with
  | zero =>
    obtain rfl : n = 0 := by omega
    exact ⟨s, .refl i s⟩
  | succ k ih =>
    obtain ⟨hbusy, hrest⟩ : busyFlag (statusOf s.env) = true ∧ busyFor k (txnEnv statusTxn s.env) = true :=
      Bool.and_eq_true_iff.mp hb
    by_cases hlt : n < 5
    · exact pollsOn_insideRound he hc hn hbusy hlt
    · obtain ⟨m, rfl⟩ := Nat.exists_eq_add_of_le (Nat.le_of_not_lt hlt)
      obtain ⟨t, ht⟩ := ih (s := busyRound s) (n := m) he rfl rfl hrest (by omega)
      exact ⟨t, (pollsOn_busyRound he hc hn hbusy).trans ht⟩

end Round

/-- Settles O35: the table of expansions, and `pollsOn_of_busyFor`. -/
theorem busyChipKeepsTheOperationPolling : Obligations.BusyChipKeepsTheOperationPolling := by
  refine ⟨fun i => ?_, fun i k n s he hc hn hb hle => ?_⟩
  · cases i <;> simp [expansionOf, writeThenPoll, writeSrPath, srwOrder, writeEnableElem]
  · obtain ⟨t, hrun, hu, hs, events, htrace, hlen, hsilent⟩ := pollsOn_of_busyFor he hc hn hb hle
    exact ⟨t, events, hrun, hu, hs, htrace, hlen, hsilent⟩

/-! ## The work of an operation (70 R264) -/

def isXferEvent (e : Event) : Bool :=
  match e with
  | .xfer _ _ => true
  | _ => false

/-- A delay of one unit. -/
def isUnitDelay (e : Event) : Bool :=
  match e with
  | .dly 1 => true
  | _ => false

/-- The exchanges an element makes when its polling loop finds busy `k` times. -/
def elemXfers (k : Nat) : Elem → Nat
  | .txn t => (outBytes t).length
  | .readStatus1 => 2
  | .waitIdle => 2 * (k + 1)
  | .delay _ => 0

/-- The delays of one unit it makes. -/
def elemDelays (k : Nat) : Elem → Nat
  | .waitIdle => k
  | .delay u => if u = 1 then 1 else 0
  | .txn _ | .readStatus1 => 0

/-- How many exchanges and how many delays of one unit a trace holds. -/
def work (trace : List Event) : Nat × Nat := (trace.countP isXferEvent, trace.countP isUnitDelay)

theorem work_append (tr events : List Event) : work (tr ++ events) = work tr + work events := by
  simp [work]

theorem work_exchanges {outs ins : List Byte} (h : ins.length = outs.length) :
    work (List.zipWith .xfer outs ins) = (outs.length, 0) := by
  induction outs generalizing ins with
  | nil => rfl
  | cons out rest ih =>
    obtain ⟨r, ins, rfl⟩ := List.exists_cons_of_length_eq_add_one h
    rw [List.zipWith_cons_cons, ← List.singleton_append, work_append, ih (by simpa using h)]
    simp [work, isXferEvent, isUnitDelay, Nat.add_comm]

theorem work_busTxn (outs : List Byte) (e : Env) : work (busTxn outs e).events = (outs.length, 0) := by
  show work ([.csLow] ++ List.zipWith .xfer outs (exchangeAll outs (envSelect e)).1 ++ [.csHigh]) = _
  rw [work_append, work_append, work_exchanges (exchangeAll_length outs _)]
  simp [work, isXferEvent, isUnitDelay]

theorem work_busPoll (k : Nat) (e : Env) : work (busPoll k e).events = (2 * (k + 1), k) := by
  induction k generalizing e with
  | zero => exact work_busTxn _ e
  | succ k ih =>
    show work ((busTxn [0x05, 0x00] e).events ++ ([.dly 1] ++ (busPoll k (busTxn [0x05, 0x00] e).env).events)) = _
    rw [work_append, work_append, work_busTxn, ih]
    simp [work, isXferEvent, isUnitDelay]
    omega

theorem work_wholeElem (k : Nat) (e : Elem) (s : State) :
    work (wholeElem k e s).trace = work s.trace + (elemXfers k e, elemDelays k e) := by
  cases e with
  | txn t => rw [wholeElem_txn, afterBus, work_append, work_busTxn]; rfl
  | readStatus1 => rw [wholeElem_readStatus1, afterBus, work_append, work_busTxn]; rfl
  | waitIdle => rw [wholeElem, wholePoll_eq, afterBus, work_append, work_busPoll]; rfl
  | delay u =>
    show work (s.trace ++ [.dly u]) = _
    rw [work_append]
    by_cases hu : u = 1 <;> simp [work, isXferEvent, isUnitDelay, elemXfers, elemDelays, hu]

theorem work_wholeElems (k : Nat) (es : List Elem) (s : State) :
    work (wholeElems k es s).trace = work s.trace + ((es.map (elemXfers k)).sum, (es.map (elemDelays k)).sum) := by
  induction es generalizing s with
  | nil => rfl
  | cons e rest ih =>
    rw [wholeElems, ih, work_wholeElem, add_assoc, List.map_cons, List.map_cons, List.sum_cons, List.sum_cons]
    rfl

/-- The response is neither. -/
theorem work_wholeOperation (k : Nat) (i : Instr) (s : State) :
    work (wholeOperation k i s).trace =
      work s.trace + (((expansionOf i).map (elemXfers k)).sum, ((expansionOf i).map (elemDelays k)).sum) := by
  rw [wholeOperation, respond_trace, work_append, work_wholeElems]
  simp [work, isXferEvent, isUnitDelay]

/-- Settles O36: the operation runs to its response (O25), and the work of its elements (`work_wholeOperation`) is the
table's, row by row. -/
theorem operationWorkIsAsCounted : Obligations.OperationWorkIsAsCounted := by
  intro i k s hs hp isXfer isDly
  have hxfer : isXfer = isXferEvent := by funext e; cases e <;> rfl
  have hdly : isDly = isUnitDelay := by funext e; cases e <;> rfl
  obtain ⟨hx, hd⟩ := Prod.mk.inj (work_wholeOperation k i s)
  refine ⟨_, everyOperationRunsToItsResponse i k s hs hp, rfl, ?_, ?_⟩
  · rw [hxfer, hx]
    congr 1
    cases i with
    | readData addr len =>
      show (outBytes ⟨cmdReadData.opcode, some addr, .read len⟩).length + 0 = 4 + len
      simp [outBytes_addressed_length, phaseBytes]
    | fastRead addr len =>
      show (outBytes ⟨cmdFastRead.opcode, some addr, .read len⟩).length + 0 = 4 + len
      simp [outBytes_addressed_length, phaseBytes]
    | pageProgram addr wdata =>
      show 1 + ((outBytes ⟨cmdPageProgram.opcode, some addr, .write wdata⟩).length + (2 * (k + 1) + 0)) =
        1 + (4 + wdata.length) + 2 * (k + 1)
      simp [outBytes_addressed_length, phaseBytes]
      omega
    | sectorErase addr | blockErase32k addr | blockErase64k addr | blockErase addr bop =>
      show 1 + (4 + (2 * (k + 1) + 0)) = 1 + 4 + 2 * (k + 1)
      omega
    | chipErase =>
      show 1 + (1 + (2 * (k + 1) + 0)) = 1 + 1 + 2 * (k + 1)
      omega
    | writeSr1 wval | writeSr2 wval | writeSr3 wval =>
      show 1 + (2 * (k + 1) + (2 + 0)) = 1 + 2 * (k + 1) + 2
      omega
    | _ => rfl
  · rw [hdly, hd]
    congr 1
    cases i <;> simp [expansionOf, elemDelays, writeThenPoll, writeSrPath, srwOrder, writeEnableElem, resetDelay]

end Sys2Proof.Machine
end

section
/-! PROOFS. A whole transaction and a whole polling loop at a chip that keeps the contract (20 R62 to R73; 41 R138). -/

namespace Sys2Proof.Machine

/-! ## Bytes that arrive -/

/-- A transaction's bytes reach the chip in order, and the replies to them settle no more than the busy bit and the
latch. -/
theorem exchangeAll_received (outs : List Byte) {e : Env} (hc : e.contract = true) :
    (exchangeAll outs e).2.contract = true ∧
    ∃ busy wel, (exchangeAll outs e).2.chip = { e.chip with rx := e.chip.rx ++ outs, busy := busy, wel := wel } := by
  induction outs generalizing e with
  | nil => exact ⟨hc, e.chip.busy, e.chip.wel, by simp [exchangeAll]⟩
  | cons out rest ih =>
    obtain ⟨busy, wel, hreply⟩ := chipReply_chip (envDraw e).1 e.chip
    have hx : (envExchange out e).2.chip = { e.chip with rx := e.chip.rx ++ [out], busy := busy, wel := wel } := by
      simp [envExchange, hc, hreply]
    obtain ⟨hcontract, busy', wel', hchip⟩ := ih (e := (envExchange out e).2) (by simp [hc])
    exact ⟨hcontract, busy', wel', by rw [exchangeAll, hchip, hx, List.append_assoc]; rfl⟩

theorem exchangeAll_append (xs ys : List Byte) (e : Env) :
    exchangeAll (xs ++ ys) e =
      ((exchangeAll xs e).1 ++ (exchangeAll ys (exchangeAll xs e).2).1, (exchangeAll ys (exchangeAll xs e).2).2) := by
  induction xs generalizing e with
  | nil => rfl
  | cons x xs ih => simp [exchangeAll, ih]

theorem envSelect_chip {e : Env} (hc : e.contract = true) : (envSelect e).chip = { e.chip with rx := [] } := by
  simp [envSelect, hc, chipSelect]

@[simp] theorem txnEnv_contract (t : Txn) (e : Env) : (txnEnv t e).contract = e.contract := by
  have h (outs : List Byte) (f : Env) : (exchangeAll outs f).2.contract = f.contract := by
    induction outs generalizing f with
    | nil => rfl
    | cons out rest ih => rw [exchangeAll, ih, envExchange_contract]
  rw [txnEnv, envDeselect_contract, h, envSelect_contract]

/-- At a chip that is awake and idle an instruction's command, other than a status read, has its effect. -/
theorem txnEnv_ready {t : Txn} {e : Env} {i : Instr} (hc : e.contract = true) (hr : chipReady e.chip = true)
    (hi : ownTxn i = some t) (ht : t.opc ≠ cmdReadSr1.opcode)
    (hl : ∀ addr bop, i = .blockErase addr bop → isListedOpcode bop = false) :
    (txnEnv t e).chip = { commandEffect i (disarm i { e.chip with rx := outBytes t }) with rx := [] } := by
  have hd : decode (outBytes t) = .ok i := decode_encode (by rw [encode, hi, Option.map_some]) hl
  obtain ⟨hchip, -⟩ := txnEnv_chip hc ht hd
  rw [hchip, receive_ready i (c := { e.chip with rx := outBytes t }) hr]

/-! ## A status read (20 R64, R65) -/

/-- What a status byte `v` read from an awake chip `c` shows of the chip `d` it leaves. -/
structure Shows (c : Chip) (v : Byte) (d : Chip) : Prop where
  busy : d.busy = .is (v.getLsbD 0)
  wel : d.wel = .is (v.getLsbD 1)
  idle : c.busy = .is false → v.getLsbD 0 = false
  latch : ∀ w, c.wel = .is w → c.busy = .is false → v.getLsbD 1 = w
  cycle : ∀ w, c.wel = .is w → c.busy = .is true → v.getLsbD 1 = (w && v.getLsbD 0)
  protect : ∀ bits, c.bp = .is bits → v.extractLsb' 2 3 = bits

/-- What a status read that returns `v` makes of a chip `c`: `d` differs from it in the busy bit and the latch, which
`v` shows if `c` is awake, and the reset is disarmed. -/
structure StatusRead (c : Chip) (v : Byte) (d : Chip) : Prop where
  frame : d = { c with rx := [], armed := .is false, busy := d.busy, wel := d.wel }
  shows : c.asleep = .is false → Shows c v d

theorem statusByte_fields (upper bp : BitVec 3) (wel busy : Bool) :
    (statusByte upper bp wel busy).getLsbD 0 = busy ∧ (statusByte upper bp wel busy).getLsbD 1 = wel ∧
      (statusByte upper bp wel busy).extractLsb' 2 3 = bp := by
  revert upper bp wel busy
  decide

theorem shows_statusReply (drawn : Byte) {c : Chip} (h : c.asleep = .is false) :
    Shows c (statusReply drawn c).1 (statusReply drawn c).2 := by
  simp only [statusReply, h, BEq.rfl, if_true]
  constructor <;> simp only [statusByte_fields]
  case idle => intro hb; simp [hb]
  case latch => intro w hw hb; simp [hw, hb, pick]
  case cycle => intro w hw hb; cases drawn.getLsbD 0 <;> simp [hw, hb, pick]
  case protect => intro bits hbp; simp [hbp, pick]

theorem statusReply_frame (drawn : Byte) (c : Chip) :
    (statusReply drawn c).2 = { c with busy := (statusReply drawn c).2.busy, wel := (statusReply drawn c).2.wel } := by
  unfold statusReply
  split <;> rfl

/-- At a chip that keeps the contract an exchange is answered by its reply, and it has received one byte more. -/
theorem envExchange_contract_chip (out : Byte) {e : Env} (hc : e.contract = true) :
    (envExchange out e).1 = (chipReply (envDraw e).1 e.chip).1 ∧
      (envExchange out e).2.chip = { (chipReply (envDraw e).1 e.chip).2 with rx := e.chip.rx ++ [out] } := by
  simp [envExchange, hc]

/-- A whole status read at a chip that keeps the contract: the second reply is a status reply, and the CS+ disarms. -/
theorem txnEnv_statusRead {e : Env} (hc : e.contract = true) :
    StatusRead e.chip (statusOf e) (txnEnv statusTxn e).chip := by
  obtain ⟨drawn, hreply, hchip⟩ : ∃ drawn, statusOf e = (statusReply drawn { e.chip with rx := [0x05] }).1 ∧
      (txnEnv statusTxn e).chip =
        { (statusReply drawn { e.chip with rx := [0x05] }).2 with rx := [], armed := .is false } := by
    have hopcode : (envExchange 0x05 (envSelect e)).2.chip = { e.chip with rx := [0x05] } := by
      rw [(envExchange_contract_chip 0x05 (by simp [hc])).2, envSelect_chip hc]
      rfl
    obtain ⟨hreply, hdata⟩ := envExchange_contract_chip 0x00 (e := (envExchange 0x05 (envSelect e)).2) (by simp [hc])
    rw [hopcode] at hreply hdata
    refine ⟨_, hreply, ?_⟩
    show (envDeselect (envExchange 0x00 (envExchange 0x05 (envSelect e)).2).2).chip = _
    rw [envDeselect, if_pos (by simp [hc]), hdata]
    show { receive .readSr1 _ with rx := [] } = _
    rw [receive_read rfl]
    rfl
  rw [hreply, hchip]
  refine ⟨by rw [statusReply_frame], fun h => ?_⟩
  obtain ⟨hbusy, hwel, hidle, hlatch, hcycle, hprotect⟩ := shows_statusReply drawn (c := { e.chip with rx := [0x05] }) h
  exact ⟨hbusy, hwel, hidle, hlatch, hcycle, hprotect⟩

/-! ## A polling loop (41 R138) -/

/-- A polling loop that ends changes of the chip the busy bit and the latch, and disarms the reset; an awake chip is
then idle. -/
theorem busPoll_chip (k : Nat) {e : Env} (hc : e.contract = true) (hp : idleAfter k e = true) :
    ∃ busy wel, (busPoll k e).env.chip = { e.chip with rx := [], armed := .is false, busy := busy, wel := wel } ∧
      (e.chip.asleep = .is false → busy = .is false) := by
  obtain ⟨hframe, hshows⟩ := txnEnv_statusRead hc
  induction k generalizing e with
  | zero =>
    have hidle : (statusOf e).getLsbD 0 = false := by simpa [idleAfter, busyFlag] using hp
    exact ⟨_, _, hframe, fun ha => by rw [(hshows ha).busy, hidle]⟩
  | succ k ih =>
    obtain ⟨-, hrest⟩ : busyFlag (statusOf e) = true ∧ idleAfter k (txnEnv statusTxn e) = true :=
      Bool.and_eq_true_iff.mp hp
    have hc' : (txnEnv statusTxn e).contract = true := by rw [txnEnv_contract, hc]
    obtain ⟨hframe', hshows'⟩ := txnEnv_statusRead hc'
    obtain ⟨busy, wel, hchip, hidle⟩ := ih hc' hrest hframe' hshows'
    rw [hframe] at hchip hidle
    exact ⟨busy, wel, hchip, hidle⟩

/-! ## Power state (60 R234) -/

theorem programByte_asleep (a : Nat) (w : Byte) (c : Chip) : (programByte a w c).asleep = c.asleep := by
  unfold programByte
  split <;> rfl

theorem kept_asleep (k : Known Bool) : Kept fun c => c.asleep = k where
  flags _ _ _ _ _ _ h := h
  programByte a w d h := (programByte_asleep a w d).trans h
  forgetByte _ _ h := h
  eraseRegion _ _ _ h := h
  forgetRegion _ _ _ h := h
  outOfRange _ h := h
  chipForget _ h := h

theorem disarm_asleep (i : Instr) (c : Chip) : (disarm i c).asleep = c.asleep :=
  disarm_keeps (kept_asleep c.asleep).flags i rfl

/-- No command but POWER_DOWN puts a ready chip to sleep. -/
theorem commandEffect_asleep {i : Instr} (hi : i ≠ .powerDown) (c : Chip) : (commandEffect i c).asleep = c.asleep :=
  (kept_asleep c.asleep).commandEffect (fun h => absurd h hi) rfl

/-- No command but POWER_DOWN puts an awake chip to sleep, ready or not. -/
theorem receive_awake {i : Instr} (hi : i ≠ .powerDown) {c : Chip} (h : c.asleep = .is false) :
    (receive i c).asleep = .is false := by
  unfold receive
  split
  · rw [commandEffect_asleep hi, disarm_asleep, h]
  · split
    · rw [disarm_asleep, h]
    · split
      · rfl
      · rw [if_neg fun hpd => hi hpd.1]
        exact h

/-- Bytes that do not begin as those of POWER_DOWN leave an awake chip awake, command or not (60 R234; log entry 35). -/
theorem chipDeselect_awake {c : Chip} (h : c.asleep = .is false) (hrx : c.rx.head? ≠ some cmdPowerDown.opcode) :
    (chipDeselect c).asleep = .is false := by
  unfold chipDeselect
  split
  next i hd =>
    refine receive_awake ?_ h
    rintro rfl
    have hbytes : some (outBytes (plainTxn cmdPowerDown)) = some c.rx := encodingADecodedTransactionGivesItBack _ _ hd
    exact hrx (by rw [← Option.some.inj hbytes]; rfl)
  next =>
    unfold garbled
    cases hc : c.rx with
    | nil => exact h
    | cons op rest =>
      have hop : op ≠ cmdPowerDown.opcode := fun hop => hrx (by rw [hc, hop]; rfl)
      simp [h, hop]

theorem txnEnv_awake {t : Txn} {e : Env} (hc : e.contract = true) (h : e.chip.asleep = .is false)
    (ht : t.opc ≠ cmdPowerDown.opcode) : (txnEnv t e).chip.asleep = .is false := by
  obtain ⟨hcontract, busy, wel, hchip⟩ := exchangeAll_received (outBytes t) (e := envSelect e) (by simp [hc])
  rw [envSelect_chip hc] at hchip
  rw [txnEnv, envDeselect, if_pos hcontract]
  refine chipDeselect_awake (by rw [hchip]; exact h) ?_
  rw [hchip]
  simpa [outBytes, headerBytes] using ht

/-! ## The W-P skeleton (44 R174) -/

/-- Write-enable sets the latch of a ready chip and disarms the reset. -/
theorem txnEnv_writeEnable {e : Env} (hc : e.contract = true) (hr : chipReady e.chip = true) :
    (txnEnv (plainTxn cmdWriteEnable) e).chip = { e.chip with rx := [], wel := .is true, armed := .is false } :=
  txnEnv_ready hc hr (i := .writeEnable) rfl (by decide) nofun

/-- The chip after a whole operation of the skeleton: what its command left, but for the busy bit, the latch and the
arming of the reset; idle if that was awake. -/
theorem execRun_writeThenPoll_chip {i : Instr} {t : Txn} {k : Nat} {s : State} (hi : expansionOf i = writeThenPoll t)
    (hs : s.AtStart) (hc : s.env.contract = true) (hp : pollsEnd k (expansionOf i) s = true) :
    ∃ u busy wel, execRun i (operationSteps k i) s = .next u ∧
      u.env.chip = { (txnEnv t (txnEnv (plainTxn cmdWriteEnable) s.env)).chip with
        rx := [], armed := .is false, busy := busy, wel := wel } ∧
      ((txnEnv t (txnEnv (plainTxn cmdWriteEnable) s.env)).chip.asleep = .is false → busy = .is false) := by
  have hrun := everyOperationRunsToItsResponse i k s hs hp
  rw [hi] at hp
  have hpoll : idleAfter k (txnEnv t (txnEnv (plainTxn cmdWriteEnable) s.env)) = true :=
    (Bool.and_true _).symm.trans hp
  obtain ⟨busy, wel, hchip, hidle⟩ := busPoll_chip k (by simp [hc]) hpoll
  refine ⟨_, busy, wel, hrun, ?_, hidle⟩
  rw [← hchip, wholeOperation, hi]
  simp only [writeThenPoll, wholeElems, wholeElem, wholePoll_eq]
  rfl

/-- A program or erase operation `i` of the table whose command is `t`. -/
structure StoreCommand (i : Instr) (t : Txn) : Prop where
  expansion : expansionOf i = writeThenPoll t
  own : ownTxn i = some t
  notStatusRead : t.opc ≠ cmdReadSr1.opcode
  ofTable : ∀ addr bop, i ≠ .blockErase addr bop
  notPowerDown : i ≠ .powerDown

theorem disarm_disarmed (i : Instr) {c : Chip} (h : c.armed = .is false) : disarm i c = c := by
  unfold disarm
  split
  · rfl
  · rw [← h]

/-- The chip that meets the command `t` of a program or erase operation: the latch set, the reset disarmed. -/
def enabledChip (t : Txn) (c : Chip) : Chip := { c with rx := outBytes t, wel := .is true, armed := .is false }

/-- A whole program or erase operation at a ready chip: its command's effect with the latch set, then the poll. -/
theorem execRun_storeCommand {i : Instr} {t : Txn} {k : Nat} {s : State} (hi : StoreCommand i t) (hs : s.AtStart)
    (hc : s.env.contract = true) (hr : chipReady s.env.chip = true) (hp : pollsEnd k (expansionOf i) s = true) :
    ∃ u wel, execRun i (operationSteps k i) s = .next u ∧
      u.env.chip =
        { commandEffect i (enabledChip t s.env.chip) with
          rx := [], armed := .is false, busy := .is false, wel := wel } := by
  obtain ⟨u, busy, wel, hrun, hchip, hidle⟩ := execRun_writeThenPoll_chip hi.expansion hs hc hp
  have henabled := txnEnv_writeEnable hc hr
  have hcommand := txnEnv_ready (t := t) (e := txnEnv (plainTxn cmdWriteEnable) s.env) (by simp [hc])
    (by rw [henabled]; exact hr) hi.own hi.notStatusRead fun addr bop h => absurd h (hi.ofTable addr bop)
  rw [henabled, disarm_disarmed i rfl] at hcommand
  rw [hcommand] at hchip hidle
  have hawake : s.env.chip.asleep = .is false := by
    have h : s.env.chip.asleep = .is false ∧ s.env.chip.busy = .is false := by simpa [chipReady] using hr
    exact h.1
  have hbusy : busy = .is false := hidle ((commandEffect_asleep hi.notPowerDown _).trans hawake)
  exact ⟨u, wel, hrun, by rw [hchip, hbusy]; rfl⟩

end Sys2Proof.Machine
end

section
/-! PROOFS. What single commands do to a chip that keeps the contract (20 R63 to R66, R70 to R73). -/

namespace Sys2Proof.Machine

theorem chipReady_iff (c : Chip) : chipReady c = true ↔ c.asleep = .is false ∧ c.busy = .is false := by
  simp [chipReady]

/-- From its start, an operation that is its one command, other than a status read, has that command's effect on a ready
chip. -/
theorem execRun_readyChip {i : Instr} {t : Txn} {s : State} (hi : expansionOf i = [.txn t]) (ho : ownTxn i = some t)
    (ht : t.opc ≠ cmdReadSr1.opcode) (hs : s.AtStart) (hc : s.env.contract = true)
    (hr : chipReady s.env.chip = true) :
    ∃ u, execRun i (txnSteps t + 1) s = .next u ∧
      u.env.chip = { commandEffect i (disarm i { s.env.chip with rx := outBytes t }) with rx := [] } :=
  ⟨_, execRun_singleTxn hi hs, txnEnv_ready hc hr ho ht fun addr bop h => by rw [h] at hi; cases hi⟩

/-! ## The latch, the volatile permission, the reset (20 R63, R70, R73) -/

/-- Settles O43: the effects of the two commands (`execRun_readyChip`). -/
theorem writeEnableSetsAndWriteDisableClearsTheLatch : Obligations.WriteEnableSetsAndWriteDisableClearsTheLatch := by
  intro s hs hc hr
  obtain ⟨t, ht, htc⟩ := execRun_readyChip (i := .writeEnable) rfl rfl (by decide) hs hc hr
  obtain ⟨u, hu, huc⟩ := execRun_readyChip (i := .writeDisable) rfl rfl (by decide) hs hc hr
  exact ⟨t, u, ht, hu, htc, huc⟩

/-- Settles O57: the effect of 0x50 (`execRun_readyChip`). -/
theorem volatileSrWriteEnablePermitsAVolatileWrite : Obligations.VolatileSrWriteEnablePermitsAVolatileWrite := by
  intro s hs hc hr
  exact execRun_readyChip (i := .volatileSrWriteEnable) rfl rfl (by decide) hs hc hr

theorem deviceReset_armed {c : Chip} (h : c.armed = .is true) :
    deviceReset c =
      { c with wel := .is false, volatileArmed := .is false, armed := .is false, busy := .any, bp := .any } := by
  simp [deviceReset, h]

theorem txnEnv_enableReset {e : Env} (hc : e.contract = true) (hr : chipReady e.chip = true) :
    (txnEnv (plainTxn cmdEnableReset) e).chip = { e.chip with rx := [], armed := .is true } :=
  txnEnv_ready hc hr (i := .enableReset) rfl (by decide) nofun

theorem txnEnv_resetDevice {e : Env} (hc : e.contract = true) (hr : chipReady e.chip = true)
    (ha : e.chip.armed = .is true) :
    (txnEnv (plainTxn cmdResetDevice) e).chip =
      { e.chip with rx := [], wel := .is false, volatileArmed := .is false, armed := .is false, busy := .any,
                    bp := .any } := by
  have heffect := deviceReset_armed (c := { e.chip with rx := outBytes (plainTxn cmdResetDevice) }) ha
  exact (txnEnv_ready hc hr (i := .resetDevice) rfl (by decide) nofun).trans
    (congrArg (fun d : Chip => { d with rx := [] }) heffect)

/-- Settles O51: {66} arms the reset, the delay leaves it armed, and {99} resets (`txnEnv_resetDevice`). -/
theorem resetClearsTheLatch : Obligations.ResetClearsTheLatch := by
  intro s hs hc hr
  have hrun : execRun .reset 8 s = .next (wholeOperation 0 .reset s) :=
    everyOperationRunsToItsResponse .reset 0 s hs rfl
  have harm := txnEnv_enableReset hc hr
  have hreset := txnEnv_resetDevice (e := txnEnv (plainTxn cmdEnableReset) s.env) (by simp [hc])
    (by rw [harm]; exact hr) (by rw [harm])
  rw [harm] at hreset
  have henv : (wholeOperation 0 .reset s).env =
      txnEnv (plainTxn cmdResetDevice) (txnEnv (plainTxn cmdEnableReset) s.env) := rfl
  exact ⟨_, hrun, by rw [henv, hreset], by rw [henv, hreset], by rw [henv, hreset]⟩

/-- A command other than ENABLE_RESET does not arm the reset. -/
theorem commandEffect_notArmed {i : Instr} (hi : i ≠ .enableReset) {c : Chip} (h : c.armed ≠ .is true) :
    (commandEffect i c).armed ≠ .is true := by
  have hcycle : CycleFree fun d => d.armed ≠ .is true := fun _ _ _ h => h
  have hprogram (a : Nat) (w : Byte) (d : Chip) (h : d.armed ≠ .is true) : (programByte a w d).armed ≠ .is true := by
    unfold programByte
    split <;> exact h
  have hstatus {effect : Chip → Chip} (he : (effect c).armed = c.armed) : (statusWrite effect c).armed ≠ .is true := by
    unfold statusWrite
    split
    · simpa [he] using h
    · split
      · exact h
      · simpa [he] using h
  cases i with
  | pageProgram addr wdata =>
    exact programPage_keeps (P := fun d => d.armed ≠ .is true) wdata hcycle (fun _ => hprogram _) (fun _ _ h => h)
      (fun _ _ h => h) h
  | sectorErase addr | blockErase32k addr | blockErase64k addr =>
    exact eraseAligned_keeps (P := fun d => d.armed ≠ .is true) hcycle (fun _ h => h) (fun _ h => h) (fun _ _ h => h) h
  | chipErase =>
    exact mutating_keeps (P := fun d => d.armed ≠ .is true) (effect := eraseRegion 0 c.size)
      (doubt := forgetRegion 0 c.size) hcycle (fun _ h => h) (fun _ h => h) h
  | writeSr1 wval => exact hstatus (effect := fun d => { d with bp := .any }) rfl
  | writeSr2 wval | writeSr3 wval => exact hstatus (effect := id) rfl
  | globalLock | globalUnlock =>
    show (protect _ c).armed ≠ _
    unfold protect
    split <;> exact h
  | resetDevice =>
    show (deviceReset c).armed ≠ _
    unfold deviceReset
    split <;> nofun
  | enableReset => exact absurd rfl hi
  | powerDown | blockErase addr bop => nofun
  | mfrDeviceId | jedecId | uniqueId | readData _ _ | fastRead _ _ | readSr1 | readSr2 | readSr3 | reset | isBusy
  | isWriteEnabled | blockProtectBits | waitIdle | writeEnable | writeDisable | volatileSrWriteEnable
  | releasePowerDown | releasePowerDownId => exact h

/-- No command but ENABLE_RESET leaves the reset armed, whatever the state of the chip. -/
theorem receive_notArmed {i : Instr} (hi : i ≠ .enableReset) (c : Chip) : (receive i c).armed ≠ .is true := by
  unfold receive
  split
  · by_cases hreset : i = .resetDevice
    · subst hreset
      show (deviceReset c).armed ≠ _
      unfold deviceReset
      split <;> nofun
    · refine commandEffect_notArmed hi ?_
      rw [disarm, if_neg (by simp [hi, hreset])]
      nofun
  · split
    next hread =>
      have hreset : i ≠ .resetDevice := by rintro rfl; cases hread
      rw [disarm, if_neg (by simp [hi, hreset])]
      nofun
    next =>
      split
      · nofun
      · split <;> nofun

/-- Settles O58: the effects of the two commands; a transaction that leaves the reset armed is read as ENABLE_RESET
(`receive_notArmed`), and its bytes are that command's (O5). -/
theorem enableResetArmsAndOnlyItDoes : Obligations.EnableResetArmsAndOnlyItDoes := by
  refine ⟨fun s hs hc hr => ⟨⟨_, execRun_singleTxn (i := .enableReset) rfl hs, txnEnv_enableReset hc hr⟩, fun ha => ?_⟩,
    fun c h => ?_⟩
  · have hreset := txnEnv_resetDevice hc hr ha
    refine ⟨_, execRun_singleTxn (i := .resetDevice) rfl hs, ?_⟩
    have henv : (busTxn (outBytes (plainTxn cmdResetDevice)) s.env).env = txnEnv (plainTxn cmdResetDevice) s.env := rfl
    simp [henv, hreset]
  · unfold chipDeselect at h
    split at h
    next i hd =>
      by_cases hi : i = .enableReset
      · subst hi
        have hbytes : some [0x66] = some c.rx := encodingADecodedTransactionGivesItBack _ _ hd
        exact (Option.some.inj hbytes).symm
      · exact absurd h (receive_notArmed hi c)
    next => cases h

/-! ## Power and protection (20 R71, R72) -/

theorem wakes_iff (i : Instr) : wakes i = true ↔ i = .releasePowerDown ∨ i = .releasePowerDownId := by
  cases i <;> simp [wakes]

theorem not_chipReady_asleep {c : Chip} (h : c.asleep = .is true) : chipReady c = false := by simp [chipReady, h]

/-- A sleeping chip sleeps on through every command but a release (60 R234). -/
theorem receive_asleep {i : Instr} (hi : wakes i = false) {c : Chip} (h : c.asleep = .is true) :
    (receive i c).asleep = .is true := by
  unfold receive
  simp only [not_chipReady_asleep h, hi, h, Bool.false_eq_true, if_false, ne_eq, not_true_eq_false, and_false]
  split
  · rw [disarm_asleep, h]
  · exact h

/-- A release wakes it (20 R72). -/
theorem receive_wakes {i : Instr} (hi : wakes i = true) {c : Chip} (h : c.asleep = .is true) :
    (receive i c).asleep = .is false := by
  have hread : onlyReads i = false := by rcases (wakes_iff i).mp hi with rfl | rfl <;> rfl
  unfold receive
  simp [not_chipReady_asleep h, hread, hi]

/-- Settles O52: the effect of 0xB9; a sleeping chip sleeps on through every other command (`receive_asleep`); a release
wakes it (`receive_wakes`). -/
theorem powerDownSleepsAndReleaseWakes : Obligations.PowerDownSleepsAndReleaseWakes := by
  refine ⟨fun s hs hc hr => ?_, fun i c h h1 h2 => ?_, fun i n s hi hs hc h => ?_⟩
  · obtain ⟨t, ht, htc⟩ := execRun_readyChip (i := .powerDown) rfl rfl (by decide) hs hc hr
    exact ⟨t, ht, by rw [htc]; rfl⟩
  · exact receive_asleep (Bool.not_eq_true _ ▸ fun hw => ((wakes_iff i).mp hw).elim h1 h2) h
  · have hwake {c : Command} (hi : expansionOf i = [.txn (plainTxn c)]) (ho : ownTxn i = some (plainTxn c))
        (hop : c.opcode ≠ cmdReadSr1.opcode) (hw : wakes i = true) :
        ∃ t, execRun i (txnSteps (plainTxn c) + 1) s = .next t ∧ t.env.chip.asleep = .is false := by
      have hd : decode (outBytes (plainTxn c)) = .ok i :=
        decode_encode (by rw [encode, ho, Option.map_some]) fun addr bop h => by rw [h] at hw; cases hw
      obtain ⟨hchip, -⟩ := txnEnv_chip hc hop hd
      refine ⟨_, execRun_singleTxn hi hs, ?_⟩
      show (txnEnv (plainTxn c) s.env).chip.asleep = _
      rw [hchip]
      exact receive_wakes hw h
    simp only [List.mem_cons, Prod.mk.injEq, List.not_mem_nil, or_false] at hi
    rcases hi with ⟨rfl, rfl⟩ | ⟨rfl, rfl⟩
    · exact hwake (c := cmdReleasePowerDown) rfl rfl (by decide) rfl
    · exact hwake (c := cmdReleasePowerDownId) rfl rfl (by decide) rfl

theorem disarm_frame (i : Instr) (c : Chip) : disarm i c = { c with armed := (disarm i c).armed } := by
  unfold disarm
  split <;> rfl

theorem disarm_wel (i : Instr) (c : Chip) : (disarm i c).wel = c.wel := by rw [disarm_frame]

theorem disarm_flash (i : Instr) (c : Chip) : (disarm i c).flash = c.flash := by rw [disarm_frame]

theorem protect_latched (bits : BitVec 3) {c : Chip} (h : c.wel = .is true) :
    (protect bits c).bp = .is bits ∧ (protect bits c).flash = c.flash := by
  simp [protect, h]

/-- Settles O53: with the latch set either command writes all protect bits (`protect_latched`). -/
theorem lockSetsAndUnlockClearsTheProtectBits : Obligations.LockSetsAndUnlockClearsTheProtectBits := by
  intro i bits s hi hs hc hr hw
  have hone {c : Command} (hi : expansionOf i = [.txn (plainTxn c)]) (ho : ownTxn i = some (plainTxn c))
      (hop : c.opcode ≠ cmdReadSr1.opcode) (heffect : ∀ d, commandEffect i d = protect bits d) :
      ∃ t, execRun i (txnSteps (plainTxn c) + 1) s = .next t ∧ t.env.chip.bp = .is bits ∧
        t.env.chip.flash = s.env.chip.flash := by
    obtain ⟨t, ht, htc⟩ := execRun_readyChip hi ho hop hs hc hr
    rw [heffect] at htc
    have hlatched : (disarm i { s.env.chip with rx := outBytes (plainTxn c) }).wel = .is true :=
      (disarm_wel i _).trans hw
    obtain ⟨hbp, hflash⟩ := protect_latched bits hlatched
    exact ⟨t, ht, by rw [htc]; exact hbp, by rw [htc]; exact hflash.trans (disarm_flash i _)⟩
  simp only [List.mem_cons, Prod.mk.injEq, List.not_mem_nil, or_false] at hi
  rcases hi with ⟨rfl, rfl⟩ | ⟨rfl, rfl⟩
  · exact hone (c := cmdGlobalLock) rfl rfl (by decide) fun _ => rfl
  · exact hone (c := cmdGlobalUnlock) rfl rfl (by decide) fun _ => rfl

/-! ## The latch clear, and status-register writes (20 R66, R70) -/

theorem statusWrite_unlatched (effect : Chip → Chip) {c : Chip} (h : c.wel = .is false)
    (hv : c.volatileArmed = .is false) : statusWrite effect c = c := by
  simp [statusWrite, h, hv]

/-- Settles O50: with the latch clear each of these commands is a no-op, after the disarming. -/
theorem mutatingCommandWithoutTheLatchDoesNothing : Obligations.MutatingCommandWithoutTheLatchDoesNothing := by
  intro i c hr hw hv hi
  have hdisarm (hne : i ≠ .enableReset ∧ i ≠ .resetDevice) : disarm i c = { c with armed := .is false } :=
    if_neg (by simp [hne])
  rw [receive_ready i hr]
  rcases hi with rfl | ⟨addr, wdata, rfl⟩ | ⟨addr, rfl | rfl | rfl⟩ | ⟨wval, rfl | rfl | rfl⟩ <;>
    rw [hdisarm ⟨nofun, nofun⟩]
  · exact mutating_unlatched _ _ hw
  · exact mutating_unlatched _ _ hw
  · exact mutating_unlatched _ _ hw
  · exact mutating_unlatched _ _ hw
  · exact mutating_unlatched _ _ hw
  · exact statusWrite_unlatched (fun d => { d with bp := .any }) (c := { c with armed := .is false }) hw hv
  · exact statusWrite_unlatched id (c := { c with armed := .is false }) hw hv
  · exact statusWrite_unlatched id (c := { c with armed := .is false }) hw hv

theorem statusWrite_latched (effect : Chip → Chip) {c : Chip} (h : c.wel = .is true) :
    statusWrite effect c = { effect c with busy := .is true, volatileArmed := .is false } := by
  simp [statusWrite, h]

/-- A status read of a ready chip leaves it ready, with its latch. -/
theorem statusRead_ready {c d : Chip} {v : Byte} (h : StatusRead c v d) (hr : chipReady c = true) {w : Bool}
    (hw : c.wel = .is w) : busyFlag v = false ∧ d = { c with rx := [], armed := .is false } := by
  obtain ⟨ha, hb⟩ := (chipReady_iff c).mp hr
  have hshows := h.shows ha
  have hidle := hshows.idle hb
  refine ⟨hidle, ?_⟩
  rw [h.frame, hshows.busy, hshows.wel, hidle, hshows.latch w hw hb, ← hb, ← hw]

/-- Settles O56: the latch is set, the poll finds the ready chip idle at its first read (`statusRead_ready`), and the
write starts a cycle (`statusWrite_latched`). -/
theorem statusWritesStartACycle : Obligations.StatusWritesStartACycle := by
  intro i wval s hi hs hc hr
  have henabled := txnEnv_writeEnable hc hr
  have hread := txnEnv_statusRead (e := txnEnv (plainTxn cmdWriteEnable) s.env) (by simp [hc])
  rw [henabled] at hread
  obtain ⟨hidle, hpolled⟩ := statusRead_ready hread hr rfl
  have hone {t : Txn} {effect : Chip → Chip} (hi : expansionOf i = [writeEnableElem, .waitIdle, .txn t])
      (hsteps : operationSteps 0 i = 12) (ho : ownTxn i = some t) (hop : t.opc ≠ cmdReadSr1.opcode)
      (heffect : ∀ d, commandEffect i d = statusWrite effect d)
      (hkeeps : ∀ d, (effect d).wel = d.wel ∧ (effect d).asleep = d.asleep ∧ (effect d).flash = d.flash ∧
        (effect d).blank = d.blank) :
      ∃ t, execRun i 12 s = .next t ∧ t.env.chip.busy = .is true ∧ t.env.chip.wel = .is true ∧
        t.env.chip.asleep = .is false ∧ t.env.chip.flash = s.env.chip.flash ∧
        t.env.chip.blank = s.env.chip.blank := by
    have hrun := everyOperationRunsToItsResponse i 0 s hs (by
      rw [hi]
      show (!busyFlag (statusOf (txnEnv (plainTxn cmdWriteEnable) s.env)) && true) = true
      rw [hidle]
      rfl)
    rw [hsteps] at hrun
    have henv : (wholeOperation 0 i s).env =
        txnEnv t (txnEnv statusTxn (txnEnv (plainTxn cmdWriteEnable) s.env)) := by
      rw [wholeOperation, hi]
      rfl
    have hwrite := txnEnv_ready (e := txnEnv statusTxn (txnEnv (plainTxn cmdWriteEnable) s.env)) (by simp [hc])
      (by rw [hpolled]; exact hr) ho hop fun addr bop h => by rw [h] at hi; cases hi
    rw [hpolled, disarm_disarmed i rfl, heffect, statusWrite_latched effect rfl] at hwrite
    obtain ⟨hwel, hasleep, hflash, hblank⟩ := hkeeps
      { s.env.chip with rx := outBytes t, wel := .is true, armed := .is false }
    refine ⟨_, hrun, ?_⟩
    rw [henv, hwrite]
    exact ⟨rfl, hwel, hasleep.trans ((chipReady_iff _).mp hr).1, hflash, hblank⟩
  have hkeeps_id (d : Chip) : (id d).wel = d.wel ∧ (id d).asleep = d.asleep ∧ (id d).flash = d.flash ∧
      (id d).blank = d.blank := ⟨rfl, rfl, rfl, rfl⟩
  simp only [List.mem_cons, List.not_mem_nil, or_false] at hi
  rcases hi with rfl | rfl | rfl
  · exact hone (effect := fun d => { d with bp := .any }) rfl rfl rfl
      (show cmdWriteSr1.opcode ≠ cmdReadSr1.opcode by decide) (fun _ => rfl) fun _ => ⟨rfl, rfl, rfl, rfl⟩
  · exact hone rfl rfl rfl (show cmdWriteSr2.opcode ≠ cmdReadSr1.opcode by decide) (fun _ => rfl) hkeeps_id
  · exact hone rfl rfl rfl (show cmdWriteSr3.opcode ≠ cmdReadSr1.opcode by decide) (fun _ => rfl) hkeeps_id

end Sys2Proof.Machine
end

section
/-! PROOFS. Programs and erases at a chip that keeps the contract: what of the array they change (20 R66, R68, R69; 93
U9, U10). -/

namespace Sys2Proof.Machine

/-! ## The operations -/

theorem storeCommand_pageProgram (addr : Addr) (wdata : List Byte) :
    StoreCommand (.pageProgram addr wdata) (commandTxn cmdPageProgram addr 0 wdata) :=
  ⟨rfl, rfl, show cmdPageProgram.opcode ≠ cmdReadSr1.opcode by decide, nofun, nofun⟩

theorem storeCommand_sectorErase (addr : Addr) :
    StoreCommand (.sectorErase addr) (commandTxn cmdSectorErase addr 0 []) :=
  ⟨rfl, rfl, show cmdSectorErase.opcode ≠ cmdReadSr1.opcode by decide, nofun, nofun⟩

theorem storeCommand_blockErase32k (addr : Addr) :
    StoreCommand (.blockErase32k addr) (commandTxn cmdBlockErase32k addr 0 []) :=
  ⟨rfl, rfl, show cmdBlockErase32k.opcode ≠ cmdReadSr1.opcode by decide, nofun, nofun⟩

theorem storeCommand_blockErase64k (addr : Addr) :
    StoreCommand (.blockErase64k addr) (commandTxn cmdBlockErase64k addr 0 []) :=
  ⟨rfl, rfl, show cmdBlockErase64k.opcode ≠ cmdReadSr1.opcode by decide, nofun, nofun⟩

theorem storeCommand_chipErase : StoreCommand .chipErase (plainTxn cmdChipErase) :=
  ⟨rfl, rfl, by decide, nofun, nofun⟩

/-- The erases of the aligned region of `g` bytes that holds `addr`, each with its command. -/
theorem eraseOperation {i : Instr} {g : Nat} {addr : Addr}
    (hi : (i, g) ∈ [(.sectorErase addr, 4096), (.blockErase32k addr, 32768),
      ((.blockErase64k addr, 65536) : Instr × Nat)]) :
    ∃ t, StoreCommand i t ∧ ∀ c, commandEffect i c = eraseAligned g addr c := by
  simp only [List.mem_cons, Prod.mk.injEq, List.not_mem_nil, or_false] at hi
  rcases hi with ⟨rfl, rfl⟩ | ⟨rfl, rfl⟩ | ⟨rfl, rfl⟩
  · exact ⟨_, storeCommand_sectorErase addr, fun _ => rfl⟩
  · exact ⟨_, storeCommand_blockErase32k addr, fun _ => rfl⟩
  · exact ⟨_, storeCommand_blockErase64k addr, fun _ => rfl⟩

/-! ## Erases (20 R69) -/

/-- With the latch set and the chip unprotected, an erase of a region inside the chip erases it and starts a cycle. -/
theorem eraseAligned_unprotected {g : Nat} {addr : Addr} {c : Chip} (hw : c.wel = .is true) (hb : c.bp = .is 0)
    (hin : addr.toNat - addr.toNat % g + g ≤ c.size) :
    eraseAligned g addr c =
      eraseRegion (addr.toNat - addr.toNat % g) (addr.toNat - addr.toNat % g + g) { c with busy := .is true } := by
  rw [eraseAligned, mutating_latched _ _ hw hb, onAligned, if_pos hin]

/-- After an erase exactly the region is blank and without a known value, and the rest is as it was. -/
theorem eraseRegion_array (lo hi a : Nat) (c : Chip) :
    if lo ≤ a ∧ a < hi then cellAt (eraseRegion lo hi c).flash a = .any ∧ isBlank (eraseRegion lo hi c) a = true
    else cellAt (eraseRegion lo hi c).flash a = cellAt c.flash a ∧ isBlank (eraseRegion lo hi c) a = isBlank c a := by
  rw [isBlank_eraseRegion]
  split
  next h => exact ⟨cellAt_cellForget_inside c.flash h, by simp [inRegion, h]⟩
  next h => exact ⟨cellAt_cellForget_outside c.flash h, by simpa [inRegion] using fun h1 h2 => absurd ⟨h1, h2⟩ h⟩

/-- Settles O45: the erase takes effect with the latch set (`execRun_storeCommand`, `eraseAligned_unprotected`), on
exactly its region (`eraseRegion_array`). -/
theorem erasesBlankExactlyTheAlignedRegion : Obligations.ErasesBlankExactlyTheAlignedRegion := by
  intro i g addr k s hi hs hc hr hb hin hp
  obtain ⟨t, hstore, heffect⟩ := eraseOperation hi
  obtain ⟨u, wel, hrun, hchip⟩ := execRun_storeCommand hstore hs hc hr hp
  rw [heffect, eraseAligned_unprotected (c := enabledChip t s.env.chip) rfl hb hin] at hchip
  refine ⟨u, hrun, by rw [hchip], fun a => ?_⟩
  rw [hchip]
  exact eraseRegion_array _ _ a _

/-- So does an erase of the chip, of all its addresses. -/
theorem eraseAll_unprotected {c : Chip} (hw : c.wel = .is true) (hb : c.bp = .is 0) :
    commandEffect .chipErase c = eraseRegion 0 c.size { c with busy := .is true } := mutating_latched _ _ hw hb

/-- Settles O46: the same for the region of the whole chip. -/
theorem chipEraseBlanksTheWholeArray : Obligations.ChipEraseBlanksTheWholeArray := by
  intro k s hs hc hr hb hp
  obtain ⟨u, wel, hrun, hchip⟩ := execRun_storeCommand storeCommand_chipErase hs hc hr hp
  rw [eraseAll_unprotected (c := enabledChip (plainTxn cmdChipErase) s.env.chip) rfl hb] at hchip
  refine ⟨u, hrun, by rw [hchip], fun a ha => ?_⟩
  have harray := eraseRegion_array 0 s.env.chip.size a s.env.chip
  rw [if_pos ⟨Nat.zero_le a, ha⟩] at harray
  rw [hchip]
  exact harray

/-! ## Staying in the page or region (20 R68; 93 U10) -/

/-- A chip like `c` but for the addresses from `lo` to before `hi` and what is not known for sure of latch and busy bit.
-/
def LikeOutside (c : Chip) (lo hi : Nat) (d : Chip) : Prop :=
  d.size = c.size ∧ d.bp = c.bp ∧
    ∀ a, ¬ (lo ≤ a ∧ a < hi) → cellAt d.flash a = cellAt c.flash a ∧ isBlank d a = isBlank c a

section Outside
variable {c d : Chip} {lo hi : Nat}

theorem LikeOutside.refl : LikeOutside c lo hi c := ⟨rfl, rfl, fun _ _ => ⟨rfl, rfl⟩⟩

theorem LikeOutside.cycleFree : CycleFree (LikeOutside c lo hi) := fun _ _ _ h => h

theorem LikeOutside.programByte {p : Nat} (hp : lo ≤ p ∧ p < hi) (w : Byte) (h : LikeOutside c lo hi d) :
    LikeOutside c lo hi (programByte p w d) := by
  obtain ⟨hsize, hbp, harray⟩ := h
  have hframe : (Sys2Proof.Machine.programByte p w d).size = d.size ∧
      (Sys2Proof.Machine.programByte p w d).bp = d.bp := by
    unfold Sys2Proof.Machine.programByte
    split <;> exact ⟨rfl, rfl⟩
  refine ⟨hframe.1.trans hsize, hframe.2.trans hbp, fun a ha => ?_⟩
  have hne : a ≠ p := by rintro rfl; exact ha hp
  obtain ⟨hcell, hblank⟩ := harray a ha
  rw [cellAt_programByte_other w d hne, isBlank_programByte, hcell, hblank]
  simp [hne]

theorem LikeOutside.forgetByte {p : Nat} (hp : lo ≤ p ∧ p < hi) (h : LikeOutside c lo hi d) :
    LikeOutside c lo hi (forgetByte p d) := by
  obtain ⟨hsize, hbp, harray⟩ := h
  refine ⟨hsize, hbp, fun a ha => ?_⟩
  have hne : a ≠ p := by rintro rfl; exact ha hp
  obtain ⟨hcell, hblank⟩ := harray a ha
  rw [isBlank_forgetByte, hblank]
  exact ⟨(cellAt_cellForget_outside d.flash (by omega)).trans hcell, by simp [hne]⟩

theorem LikeOutside.eraseRegion (h : LikeOutside c lo hi d) : LikeOutside c lo hi (eraseRegion lo hi d) := by
  obtain ⟨hsize, hbp, harray⟩ := h
  refine ⟨hsize, hbp, fun a ha => ?_⟩
  have hregion := eraseRegion_array lo hi a d
  rw [if_neg ha, (harray a ha).1, (harray a ha).2] at hregion
  exact hregion

theorem LikeOutside.forgetRegion (h : LikeOutside c lo hi d) : LikeOutside c lo hi (forgetRegion lo hi d) := by
  obtain ⟨hsize, hbp, harray⟩ := h
  exact ⟨hsize, hbp, fun a ha => ⟨(cellAt_cellForget_outside d.flash ha).trans (harray a ha).1, (harray a ha).2⟩⟩

end Outside

theorem programPlace_inPage (addr j : Nat) :
    addr - addr % 256 ≤ programPlace addr j ∧ programPlace addr j < addr - addr % 256 + 256 := by
  simp only [programPlace, pageBase]
  omega

theorem programPage_likeOutside {addr : Addr} {c : Chip} (wdata : List Byte)
    (hin : addr.toNat - addr.toNat % 256 + 256 ≤ c.size) :
    LikeOutside c (addr.toNat - addr.toNat % 256) (addr.toNat - addr.toNat % 256 + 256) (programPage addr wdata c) :=
  programPage_keeps wdata LikeOutside.cycleFree
    (fun l w _ => LikeOutside.programByte (programPlace_inPage addr.toNat l) w)
    (fun l _ => LikeOutside.forgetByte (programPlace_inPage addr.toNat l))
    (fun _ hout hd => absurd (hd.1.symm ▸ hin) hout) .refl

theorem eraseAligned_likeOutside {g : Nat} {addr : Addr} {c : Chip}
    (hin : addr.toNat - addr.toNat % g + g ≤ c.size) :
    LikeOutside c (addr.toNat - addr.toNat % g) (addr.toNat - addr.toNat % g + g) (eraseAligned g addr c) :=
  eraseAligned_keeps LikeOutside.cycleFree (fun _ => LikeOutside.eraseRegion) (fun _ => LikeOutside.forgetRegion)
    (fun _ hout hd => absurd (hd.1.symm ▸ hin) hout) .refl

/-- Settles O59: whether it is carried out or in doubt, a program touches only places of its page
(`programPage_likeOutside`) and an erase only its region (`eraseAligned_likeOutside`). -/
theorem programsAndErasesStayInTheirRegion : Obligations.ProgramsAndErasesStayInTheirRegion := by
  intro i g addr wdata k s hi hs hc hr hin hp
  obtain ⟨t, hstore, heffect⟩ : ∃ t, StoreCommand i t ∧ ∀ c, addr.toNat - addr.toNat % g + g ≤ c.size →
      LikeOutside c (addr.toNat - addr.toNat % g) (addr.toNat - addr.toNat % g + g) (commandEffect i c) := by
    rcases List.mem_cons.mp hi with h | h
    · cases h
      exact ⟨_, storeCommand_pageProgram addr wdata, fun c => programPage_likeOutside wdata⟩
    · obtain ⟨t, hstore, heffect⟩ := eraseOperation h
      exact ⟨t, hstore, fun c hin => heffect c ▸ eraseAligned_likeOutside hin⟩
  obtain ⟨u, wel, hrun, hchip⟩ := execRun_storeCommand hstore hs hc hr hp
  obtain ⟨-, hbp, harray⟩ := heffect (enabledChip t s.env.chip) hin
  exact ⟨u, hrun, by rw [hchip]; exact hbp, by rw [hchip]; exact harray⟩

/-! ## What a page program stores (20 R68; 93 U9) -/

theorem isBlank_programFrom_of_not {addr j x : Nat} (wdata : List Byte) {c : Chip} (h : isBlank c x = false) :
    isBlank (programFrom addr j wdata c) x = false :=
  programFrom_keeps (P := fun d => isBlank d x = false) (fun l w d hd => by simp [isBlank_programByte, hd]) j wdata h

theorem isBlank_programFrom_place {addr j l : Nat} {wdata : List Byte} (hl : l < wdata.length) (c : Chip) :
    isBlank (programFrom addr j wdata c) (programPlace addr (j + l)) = false := by
  induction wdata generalizing j l c with
  | nil => cases hl
  | cons w rest ih =>
    rw [programFrom_cons]
    cases l with
    | zero => exact isBlank_programFrom_of_not rest (by simp [isBlank_programByte])
    | succ l =>
      rw [show j + (l + 1) = j + 1 + l by omega]
      exact ih (by simpa using hl) _

theorem isBlank_programFrom_outside {addr j x : Nat} {wdata : List Byte}
    (h : ∀ l < wdata.length, x ≠ programPlace addr (j + l)) (c : Chip) :
    isBlank (programFrom addr j wdata c) x = isBlank c x := by
  induction wdata generalizing j c with
  | nil => rfl
  | cons w rest ih =>
    have hfirst : x ≠ programPlace addr j := by simpa using h 0 (by simp)
    rw [programFrom_cons, ih, isBlank_programByte]
    · simp [hfirst]
    · intro l hl
      rw [show j + 1 + l = j + (l + 1) by omega]
      exact h (l + 1) (by simpa using hl)

/-- A byte that has its place to itself is stored there if the place was blank. -/
theorem cellAt_programFrom_alone {addr j l : Nat} {wdata : List Byte} {w : Byte} (hw : wdata[l]? = some w)
    (halone : ∀ m < wdata.length, programPlace addr (j + m) = programPlace addr (j + l) → m = l) (c : Chip) :
    cellAt (programFrom addr j wdata c).flash (programPlace addr (j + l)) =
      if isBlank c (programPlace addr (j + l)) then .is w else .any := by
  induction wdata generalizing j l c with
  | nil => cases hw
  | cons v rest ih =>
    rw [programFrom_cons]
    cases l with
    | zero =>
      obtain rfl : v = w := by simpa using hw
      rw [cellAt_programFrom_outside, Nat.add_zero, cellAt_programByte_same]
      intro m hm heq
      have := halone (m + 1) (by simpa using hm) (by rw [heq]; congr 1; omega)
      omega
    | succ l =>
      have hlt : l < rest.length := (List.getElem?_eq_some_iff.mp (by simpa using hw)).1
      have hne : programPlace addr (j + (l + 1)) ≠ programPlace addr j := by
        intro heq
        have := halone 0 (by simp) heq.symm
        omega
      have hshift : j + (l + 1) = j + 1 + l := by omega
      rw [hshift] at hne halone ⊢
      rw [ih (by simpa using hw), isBlank_programByte]
      · simp [hne]
      · intro m hm heq
        have := halone (m + 1) (by simpa using hm) (by rw [← heq]; congr 1; omega)
        omega

/-- A place holds any value, and none known to be blank. -/
def Lost (p : Nat) (c : Chip) : Prop := isBlank c p = false ∧ cellAt c.flash p = .any

/-- A lost place stays lost, whatever is programmed. -/
theorem programByte_lost (a p : Nat) (w : Byte) {c : Chip} (h : Lost p c) : Lost p (programByte a w c) := by
  obtain ⟨hblank, hcell⟩ := h
  refine ⟨by simp [isBlank_programByte, hblank], ?_⟩
  by_cases hp : p = a
  · subst hp
    simp [cellAt_programByte_same, hblank]
  · rw [cellAt_programByte_other w c hp, hcell]

/-- A place that is not blank holds any value once a byte goes there. -/
theorem cellAt_programFrom_notBlank {addr j l : Nat} {wdata : List Byte} (hl : l < wdata.length) {c : Chip}
    (h : isBlank c (programPlace addr (j + l)) = false) :
    cellAt (programFrom addr j wdata c).flash (programPlace addr (j + l)) = .any := by
  induction wdata generalizing j l c with
  | nil => cases hl
  | cons v rest ih =>
    rw [programFrom_cons]
    cases l with
    | zero =>
      have hlost : Lost (programPlace addr j) (programByte (programPlace addr j) v c) := by
        have h : isBlank c (programPlace addr j) = false := h
        simp [Lost, isBlank_programByte, cellAt_programByte_same, h]
      exact (programFrom_keeps (P := Lost (programPlace addr j)) (fun _ w _ => programByte_lost _ _ w) (j + 1) rest
        hlost).2
    | succ l =>
      have hshift : j + (l + 1) = j + 1 + l := by omega
      rw [hshift] at h ⊢
      exact ih (by simpa using hl) (by simp [isBlank_programByte, h])

/-- A place that two bytes go to holds any value: after the first it is not blank. -/
theorem cellAt_programFrom_twice {addr j l m : Nat} {wdata : List Byte} (hl : l < wdata.length) (hm : m < l)
    (h : programPlace addr (j + m) = programPlace addr (j + l)) (c : Chip) :
    cellAt (programFrom addr j wdata c).flash (programPlace addr (j + l)) = .any := by
  induction wdata generalizing j l m c with
  | nil => cases hl
  | cons v rest ih =>
    obtain ⟨l, rfl⟩ := Nat.exists_eq_add_of_lt (Nat.zero_lt_of_lt hm)
    have hshift : j + (0 + l + 1) = j + 1 + l := by omega
    have hlt : l < rest.length := by simpa using hl
    rw [hshift] at h ⊢
    rw [programFrom_cons]
    cases m with
    | zero => exact cellAt_programFrom_notBlank hlt (by simp [isBlank_programByte, ← h])
    | succ m => exact ih hlt (m := m) (by omega) (by rw [← h]; congr 1; omega) _

/-- With the latch set and the chip unprotected, a program with data of a page inside the chip is carried out. -/
theorem programPage_unprotected {addr : Addr} {wdata : List Byte} {c : Chip} (hw : c.wel = .is true) (hb : c.bp = .is 0)
    (hne : wdata ≠ []) (hin : addr.toNat - addr.toNat % 256 + 256 ≤ c.size) :
    commandEffect (.pageProgram addr wdata) c = programFrom addr.toNat 0 wdata { c with busy := .is true } := by
  rw [commandEffect, programPage, mutating_latched _ _ hw hb, onPage, if_neg (by simpa using hne)]
  exact if_pos hin

/-- Settles O44: the program takes effect with the latch set (`execRun_storeCommand`, `programPage_unprotected`); what
each place then holds is `cellAt_programFrom_alone`, `cellAt_programFrom_twice` and the lemmas on blank places. -/
theorem pageProgramStoresItsBytes : Obligations.PageProgramStoresItsBytes := by
  intro addr wdata k s hs hc hr hb hne hin hp place
  obtain ⟨u, wel, hrun, hchip⟩ := execRun_storeCommand (storeCommand_pageProgram addr wdata) hs hc hr hp
  rw [programPage_unprotected (c := enabledChip _ s.env.chip) rfl hb hne hin] at hchip
  have hplace (j : Nat) : place j = programPlace addr.toNat (0 + j) := by rw [Nat.zero_add]; rfl
  have hstored (j : Nat) (w : Byte) (hw : wdata[j]? = some w)
      (halone : ∀ l < wdata.length, place l = place j → l = j) :
      cellAt u.env.chip.flash (place j) = if isBlank s.env.chip (place j) then .is w else .any := by
    rw [hchip]
    exact hplace j ▸ cellAt_programFrom_alone hw (fun m hm heq => halone m hm (by rw [hplace, hplace, heq])) _
  refine ⟨u, hrun, by rw [hchip], hstored, ?_, ?_, ?_, ?_⟩
  · intro j hj l hl heq
    rw [hplace, hplace] at heq
    rw [hchip, hplace]
    exact cellAt_programFrom_twice hj hl heq _
  · intro j hj
    rw [hchip, hplace]
    exact isBlank_programFrom_place hj _
  · intro a ha
    have hout : ∀ l < wdata.length, a ≠ programPlace addr.toNat (0 + l) := fun l hl => hplace l ▸ ha l hl
    rw [hchip]
    exact ⟨cellAt_programFrom_outside addr.toNat wdata 0 _ a hout, isBlank_programFrom_outside hout _⟩
  · intro hduty j w hw hblank
    obtain ⟨-, hfits⟩ : addr.toNat < s.env.chip.size ∧ addr.toNat % pageSize + wdata.length ≤ pageSize := by
      simpa only [callerDuty, Bool.and_eq_true, decide_eq_true_eq] using hduty
    have hfits : addr.toNat % 256 + wdata.length ≤ 256 := hfits
    have hinside (l : Nat) (hl : l < wdata.length) : place l = addr.toNat + l := by
      simp only [place]
      omega
    have hj : j < wdata.length := (List.getElem?_eq_some_iff.mp hw).1
    have hcell := hstored j w hw fun l hl heq => by
      rw [hinside l hl, hinside j hj] at heq
      omega
    rwa [hinside j hj, hblank, if_pos rfl] at hcell

/-! ## The chip after the poll (70 R253) -/

theorem wholeOperation_waitIdle_env (k : Nat) (s : State) :
    (wholeOperation k .waitIdle s).env = (busPoll k s.env).env := by
  rw [wholeOperation]
  simp only [expansionOf, wholeElems, wholeElem, wholePoll_eq]
  rfl

/-- Settles O60: nothing these operations send begins as POWER_DOWN does, so the chip stays awake (`txnEnv_awake`), and
the poll ends with it idle (`busPoll_chip`). -/
theorem pollAfterOperationsLeaveTheChipIdle : Obligations.PollAfterOperationsLeaveTheChipIdle := by
  intro i k s hi hs hc ha hp
  have hskeleton {t : Txn} (hi : expansionOf i = writeThenPoll t) (ht : t.opc ≠ cmdPowerDown.opcode) :
      ∃ t, execRun i (operationSteps k i) s = .next t ∧ chipReady t.env.chip = true := by
    obtain ⟨u, busy, wel, hrun, hchip, hidle⟩ := execRun_writeThenPoll_chip hi hs hc hp
    have hawake := txnEnv_awake (t := t) (e := txnEnv (plainTxn cmdWriteEnable) s.env) (by simp [hc])
      (txnEnv_awake hc ha (by decide)) ht
    exact ⟨u, hrun, (chipReady_iff _).mpr ⟨by rw [hchip]; exact hawake, by rw [hchip]; exact hidle hawake⟩⟩
  rcases hi with rfl | rfl | ⟨addr, wdata, rfl⟩ | ⟨addr, rfl | rfl | rfl⟩ | ⟨addr, bop, rfl, hbop⟩
  · exact hskeleton rfl (by decide)
  · have hpoll : idleAfter k s.env = true := (Bool.and_true _).symm.trans hp
    obtain ⟨busy, wel, hchip, hidle⟩ := busPoll_chip k hc hpoll
    refine ⟨_, everyOperationRunsToItsResponse .waitIdle k s hs hp, ?_⟩
    rw [wholeOperation_waitIdle_env, hchip]
    exact (chipReady_iff _).mpr ⟨ha, hidle ha⟩
  · exact hskeleton rfl (show cmdPageProgram.opcode ≠ cmdPowerDown.opcode by decide)
  · exact hskeleton rfl (show cmdSectorErase.opcode ≠ cmdPowerDown.opcode by decide)
  · exact hskeleton rfl (show cmdBlockErase32k.opcode ≠ cmdPowerDown.opcode by decide)
  · exact hskeleton rfl (show cmdBlockErase64k.opcode ≠ cmdPowerDown.opcode by decide)
  · exact hskeleton rfl hbop

end Sys2Proof.Machine
end

section
/-! PROOFS. Reads at a chip that keeps the contract: what they return, and that they and the other commands that store
nothing leave the array (20 R57, R67, R74; 10 R32). -/

namespace Sys2Proof.Machine

/-! ## The replies of a read phase -/

section Window
variable {V : Nat → Byte → Prop} {op : Byte} {rest : List Byte} {c : Chip}

/-- Where the chip `c`, after the header `op :: rest` and some served bytes, answers each byte `V` names, the replies to
the bytes of the read phase are those. -/
theorem exchangeAll_window (hop : op ≠ cmdReadSr1.opcode)
    (hreply : ∀ served drawn b, V served.length b → (chipReply drawn { c with rx := op :: rest ++ served }).1 = b)
    {n j : Nat} {b : Byte} {served : List Byte} {e : Env} (hc : e.contract = true)
    (he : e.chip = { c with rx := op :: rest ++ served }) (hj : j < n) (hv : V (served.length + j) b) :
    (exchangeAll (List.replicate n 0x00) e).1[j]? = some b := by
  induction n generalizing j served e with
  | zero => cases hj
  | succ n ih =>
    obtain ⟨hr, hchip⟩ := envExchange_contract_chip 0x00 hc
    rw [chipReply_chip_of_not_status _ (by rw [he]; simpa using hop)] at hchip
    rw [List.replicate_succ, exchangeAll]
    cases j with
    | zero => rw [List.getElem?_cons_zero, hr, he, hreply served _ b hv]
    | succ j =>
      rw [List.getElem?_cons_succ]
      refine ih (served := served ++ [0x00]) (by simp [hc]) ?_ (by omega) ?_
      · rw [hchip, he, List.append_assoc]
      · rw [List.length_append, List.length_singleton, Nat.add_assoc, Nat.add_comm 1 j]
        exact hv

/-- The same for a whole transaction with that header. -/
theorem busTxn_window {e : Env} (hc : e.contract = true) (hop : op ≠ cmdReadSr1.opcode)
    (hreply : ∀ served drawn b, V served.length b →
      (chipReply drawn { e.chip with rx := op :: rest ++ served }).1 = b)
    {n j : Nat} {b : Byte} (hj : j < n) (hv : V j b) :
    ((busTxn (op :: rest ++ List.replicate n 0x00) e).replies.drop (op :: rest).length)[j]? = some b := by
  have hselect := envSelect_chip hc
  obtain ⟨hchip, hcontract⟩ := exchangeAll_chip (op :: rest) (e := envSelect e) (by simp [hc]) (by
    intro k
    rw [hselect]
    cases k <;> simp [hop])
  rw [busTxn, exchangeAll_append]
  simp only
  rw [List.drop_left' (exchangeAll_length _ _)]
  refine exchangeAll_window (V := V) (c := e.chip) (served := []) hop hreply hcontract ?_ hj (by simpa using hv)
  rw [hchip, hselect, List.append_nil, List.nil_append]

end Window

/-! ## Array reads (20 R67) -/

/-- A ready chip answers the data bytes of an array read with the bytes it is known to hold. -/
theorem chipReply_read {op a2 a1 a0 : Byte} (hop : op = cmdReadData.opcode ∨ op = cmdFastRead.opcode) {c : Chip}
    (hr : chipReady c = true) (served : List Byte) (drawn b : Byte)
    (hsize : readAddress a2 a1 a0 served < c.size) (hcell : cellAt c.flash (readAddress a2 a1 a0 served) = .is b) :
    (chipReply drawn { c with rx := op :: a2 :: a1 :: a0 :: served }).1 = b := by
  have hready : chipReady { c with rx := op :: a2 :: a1 :: a0 :: served } = true := hr
  simp [chipReply, hready, hop, hsize, hcell, pick]

theorem addrOfBytes_extract (a : Addr) :
    addrOfBytes (a.extractLsb' 16 8) (a.extractLsb' 8 8) (a.extractLsb' 0 8) = a := by
  have hbytes := addrBytes_addr a
  simp only [addrBytes, List.cons.injEq, and_true] at hbytes
  obtain ⟨h2, h1, h0⟩ := hbytes
  rw [← h2, ← h1, ← h0, addrOfBytes_addrBytes]

/-- Settles O47: the response is the replies to the data bytes (O28), and these are the array's (`busTxn_window`,
`chipReply_read`). -/
theorem readsReturnTheArrayBytes : Obligations.ReadsReturnTheArrayBytes := by
  intro addr len i s hi hs hc hr
  obtain ⟨op, hop, hmem⟩ : ∃ op, (op = cmdReadData.opcode ∨ op = cmdFastRead.opcode) ∧
      (i, op) ∈ [(.readData addr len, 0x03), ((.fastRead addr len, 0x0B) : Instr × Byte)] := by
    rcases List.mem_pair.mp hi with rfl | rfl
    · exact ⟨_, .inl rfl, List.mem_cons_self⟩
    · exact ⟨_, .inr rfl, List.mem_cons_of_mem _ List.mem_cons_self⟩
  obtain ⟨hlen, hrun⟩ := readsReturnExactlyLenReplies addr len i op s hmem hs
  refine ⟨_, _, hrun, List.getLast?_concat, hlen, fun j b hj hsize hcell => ?_⟩
  have hbase (served : List Byte) : readAddress (addr.extractLsb' 16 8) (addr.extractLsb' 8 8) (addr.extractLsb' 0 8)
      served = addr.toNat + served.length := by rw [readAddress, addrOfBytes_extract]
  refine busTxn_window (op := op) (rest := [addr.extractLsb' 16 8, addr.extractLsb' 8 8, addr.extractLsb' 0 8])
    (V := fun k b => addr.toNat + k < s.env.chip.size ∧ cellAt s.env.chip.flash (addr.toNat + k) = .is b)
    hc ?_ ?_ hj ⟨hsize, hcell⟩
  · rcases hop with rfl | rfl <;> decide
  · intro served drawn b ⟨hsize, hcell⟩
    exact chipReply_read hop hr served drawn b (hbase served ▸ hsize) (hbase served ▸ hcell)

/-! ## The identification (20 R74) -/

theorem chipReply_jedec {c : Chip} {m d e : Byte} (hr : chipReady c = true) (hj : c.jedec = .is (m, d, e))
    (served : List Byte) (drawn b : Byte) (hb : [m, d, e][served.length]? = some b) :
    (chipReply drawn { c with rx := cmdJedecId.opcode :: served }).1 = b := by
  have hready : chipReady { c with rx := cmdJedecId.opcode :: served } = true := hr
  unfold chipReply
  simp only
  rw [if_neg fun h => absurd h.1 (by decide), if_pos hready, if_neg (by decide), if_pos trivial, hj]
  rcases served with _ | ⟨b0, _ | ⟨b1, _ | ⟨b2, served⟩⟩⟩
  · exact Option.some.inj hb
  · exact Option.some.inj hb
  · exact Option.some.inj hb
  · cases hb

/-- Settles O48: the response is the replies to the data bytes (O27), and these are the chip's three bytes. -/
theorem jedecIdReturnsTheChipsIdentification : Obligations.JedecIdReturnsTheChipsIdentification := by
  intro m d e s hs hc hr hj
  obtain ⟨hlen, hrun⟩ := identifyReturnsEveryReply .jedecId 0x9F 3 s (by simp) hs
  have hreplies : (busTxn (0x9F :: List.replicate 3 0x00) s.env).replies.tail = [m, d, e] := by
    have hreply (j : Nat) (hj3 : j < 3) (b : Byte) (hb : [m, d, e][j]? = some b) :
        (busTxn (0x9F :: List.replicate 3 0x00) s.env).replies.tail[j]? = some b := by
      rw [← List.drop_one]
      exact busTxn_window (V := fun k b => [m, d, e][k]? = some b) (op := 0x9F) (rest := []) hc (by decide)
        (chipReply_jedec hr hj) hj3 hb
    have htail : (busTxn (0x9F :: List.replicate 3 0x00) s.env).replies.tail.length = 3 := by
      rw [List.length_tail, hlen]
    refine List.ext_getElem? fun j => ?_
    by_cases hj3 : j < 3
    · rw [hreply j hj3 _ (List.getElem?_eq_getElem hj3), List.getElem?_eq_getElem (l := [m, d, e]) hj3]
    · rw [List.getElem?_eq_none (by omega), List.getElem?_eq_none (l := [m, d, e]) (Nat.le_of_not_lt hj3)]
  refine ⟨_, hrun, ?_, txnEnv_ready hc hr (i := .jedecId) rfl (by decide) nofun⟩
  rw [List.getLast?_concat, hreplies]

/-! ## A status read (10 R28, R32; 20 R64, R65) -/

/-- Settles O49: READ_SR1 makes one status read (O29), whose byte shows an awake chip (`txnEnv_statusRead`). -/
theorem statusReadShowsBusyLatchAndProtectBits : Obligations.StatusReadShowsBusyLatchAndProtectBits := by
  intro s hs hc ha
  obtain ⟨hrun, -, -, -⟩ := statusQueriesAnswerFromAFreshRead s hs
  obtain ⟨hframe, hshows⟩ := txnEnv_statusRead hc
  obtain ⟨hbusy, hwel, hidle, hlatch, hcycle, hprotect⟩ := hshows ha
  have hbp : (txnEnv statusTxn s.env).chip.bp = s.env.chip.bp := (congrArg Chip.bp hframe :)
  exact ⟨_, hrun, hbusy, hwel, hbp, hidle, hlatch, hcycle, hprotect⟩

/-! ## The array through a step (20 R57) -/

/-- Two chips of which the same is known of the array. -/
def SameArray (c d : Chip) : Prop := d.flash = c.flash ∧ d.blank = c.blank

theorem SameArray.known {c d : Chip} (h : SameArray c d) (a : Nat) :
    cellAt d.flash a = cellAt c.flash a ∧ isBlank d a = isBlank c a := by
  obtain ⟨hflash, hblank⟩ := h
  unfold isBlank
  rw [hflash, hblank]
  exact ⟨rfl, rfl⟩

theorem SameArray.refl (c : Chip) : SameArray c c := ⟨rfl, rfl⟩

/-- A step leaves the array if the command it may complete does: in the invariant's positions a chip that keeps the
contract has received the whole transaction at its CS+. -/
theorem execStep_sameArray {i : Instr} {s t : State} (h : ExecStep i s t) (hp : runPosition (expansionOf i) s = true)
    (hend : ∀ e u, (expansionOf i)[s.upc]? = some e → elemTxn e = some u → s.env.contract = true →
      s.env.chip.rx = outBytes u → SameArray s.env.chip (chipDeselect s.env.chip)) :
    SameArray s.env.chip t.env.chip := by
  cases h with
  | select => rw [csAssert_env, envSelect]; split <;> exact .refl _
  | byte => exact envExchange_array _ s.env
  | @release e u he ht hc hb =>
    rw [elemFinish_env, csRelease_env, envDeselect]
    split
    next hcontract =>
      rw [runPosition_of_elem he, elemPosition_low ht hc] at hp
      obtain ⟨-, -, hrx⟩ := (insideTxn_iff u s).mp hp
      have hall := (hrx hcontract).trans (List.take_of_length_le (List.getElem?_eq_none_iff.mp hb))
      exact hend e u he ht hcontract hall
    next => exact .refl _
  | pause | delay | respond => exact .refl _

theorem disarm_sameArray (i : Instr) (c : Chip) : SameArray c (disarm i c) := by
  rw [disarm_frame]
  exact ⟨rfl, rfl⟩

/-- At CS+ the array stays if it stays through the command received. -/
theorem chipDeselect_sameArray {c : Chip} {j : Instr} {u : Txn} (hj : ownTxn j = some u)
    (hl : ∀ addr bop, j ≠ .blockErase addr bop) (hrx : c.rx = outBytes u) (h : SameArray c (receive j c)) :
    SameArray c (chipDeselect c) := by
  have hd : decode c.rx = .ok j :=
    decode_encode (by rw [encode, hj, Option.map_some, hrx]) fun addr bop hb => absurd hb (hl addr bop)
  unfold chipDeselect
  rw [hd]
  exact h

theorem not_blockErase_of_onlyReads {j : Instr} (h : onlyReads j = true) (addr : Addr) (bop : Byte) :
    j ≠ .blockErase addr bop := by
  rintro rfl
  cases h

/-- The elements of the reads and queries, and every polling loop, send commands that only read. -/
theorem readCommand_of_elem {i : Instr} {n : Nat} {e : Elem} {u : Txn}
    (hi : i ∈ [.mfrDeviceId, .jedecId, .uniqueId, .readSr1, .readSr2, .readSr3, .isBusy, .isWriteEnabled,
      .blockProtectBits, .waitIdle] ∨ (∃ addr len, i = .readData addr len ∨ i = .fastRead addr len) ∨
      (expansionOf i)[n]? = some .waitIdle)
    (he : (expansionOf i)[n]? = some e) (hu : elemTxn e = some u) : ∃ j, onlyReads j = true ∧ ownTxn j = some u := by
  have hstatus (h : e = .readStatus1 ∨ e = .waitIdle) : ∃ j, onlyReads j = true ∧ ownTxn j = some u := by
    rcases h with rfl | rfl <;> exact ⟨.readSr1, rfl, hu⟩
  have hown {t : Txn} (hx : expansionOf i = [.txn t]) (ho : ownTxn i = some t) (hr : onlyReads i = true) :
      ∃ j, onlyReads j = true ∧ ownTxn j = some u := by
    obtain rfl : e = .txn t := by simpa [hx] using List.mem_of_getElem? he
    cases hu
    exact ⟨i, hr, ho⟩
  have hmem := List.mem_of_getElem? he
  rcases hi with hi | ⟨addr, len, rfl | rfl⟩ | hpoll
  · simp only [List.mem_cons, List.not_mem_nil, or_false] at hi
    rcases hi with rfl | rfl | rfl | rfl | rfl | rfl | rfl | rfl | rfl | rfl
    · exact hown rfl rfl rfl
    · exact hown rfl rfl rfl
    · exact hown rfl rfl rfl
    · exact hstatus (.inl (List.mem_singleton.mp hmem))
    · exact hown rfl rfl rfl
    · exact hown rfl rfl rfl
    · exact hstatus (.inl (List.mem_singleton.mp hmem))
    · exact hstatus (.inl (List.mem_singleton.mp hmem))
    · exact hstatus (.inl (List.mem_singleton.mp hmem))
    · exact hstatus (.inr (List.mem_singleton.mp hmem))
  · exact hown rfl rfl rfl
  · exact hown rfl rfl rfl
  · exact hstatus (.inr (Option.some.inj (he.symm.trans hpoll)))

/-- Settles O55: these steps complete no command but reads, and a read only disarms, whatever the state of the chip. -/
theorem readsAndPollsLeaveTheArray : Obligations.ReadsAndPollsLeaveTheArray := by
  rintro i s t hinv hs rfl h hi
  obtain ⟨-, -, hpos, -⟩ := hinv
  refine SameArray.known (execStep_sameArray (execStep_of_exec h) (hpos hs) fun e u he hu _ hrx => ?_)
  obtain ⟨j, hread, hj⟩ := readCommand_of_elem hi he hu
  refine chipDeselect_sameArray hj (not_blockErase_of_onlyReads hread) hrx ?_
  rw [receive_read hread]
  exact disarm_sameArray j _

/-! ## Commands that store nothing (20 R57, R63, R71 to R73) -/

/-- The commands after which the array may not be what it was: a program, an erase, and POWER_DOWN, of which the source
does not say what survives it. -/
def losesArray : Instr → Bool
  | .pageProgram _ _ | .sectorErase _ | .blockErase32k _ | .blockErase64k _ | .chipErase | .blockErase _ _
  | .powerDown => true
  | .mfrDeviceId | .jedecId | .uniqueId | .readData _ _ | .fastRead _ _ | .readSr1 | .readSr2 | .readSr3 | .writeEnable
  | .writeDisable | .volatileSrWriteEnable | .writeSr1 _ | .writeSr2 _ | .writeSr3 _ | .globalLock | .globalUnlock
  | .releasePowerDown | .releasePowerDownId | .enableReset | .resetDevice | .reset | .isBusy | .isWriteEnabled
  | .blockProtectBits | .waitIdle => false

theorem statusWrite_sameArray {effect : Chip → Chip} (heffect : ∀ d, SameArray d (effect d)) (c : Chip) :
    SameArray c (statusWrite effect c) := by
  unfold statusWrite
  split
  · exact heffect c
  · split
    · exact .refl c
    · exact heffect c

theorem protect_sameArray (bits : BitVec 3) (c : Chip) : SameArray c (protect bits c) := by
  unfold protect
  split <;> exact .refl c

theorem commandEffect_sameArray {j : Instr} {c : Chip} (hj : losesArray j = false)
    (ha : j = .resetDevice → c.armed = .is true) : SameArray c (commandEffect j c) := by
  cases j with
  | pageProgram | sectorErase | blockErase32k | blockErase64k | chipErase | blockErase | powerDown => cases hj
  | writeSr1 => exact statusWrite_sameArray (effect := fun d => { d with bp := .any }) (fun _ => ⟨rfl, rfl⟩) c
  | writeSr2 | writeSr3 => exact statusWrite_sameArray (effect := id) .refl c
  | globalLock => exact protect_sameArray 7 c
  | globalUnlock => exact protect_sameArray 0 c
  | resetDevice =>
    rw [commandEffect, deviceReset_armed (ha rfl)]
    exact .refl c
  | _ => exact .refl c

/-- The commands an instruction that stores nothing sends store nothing either; RESET_DEVICE is the last of RESET's. -/
theorem keepingCommand_of_elem {i : Instr} {n : Nat} {e : Elem} {u : Txn} (hi : losesArray i = false)
    (he : (expansionOf i)[n]? = some e) (hu : elemTxn e = some u) :
    ∃ j, ownTxn j = some u ∧ losesArray j = false ∧ (j = .resetDevice → i = .resetDevice ∨ (i = .reset ∧ n = 2)) := by
  have hstatus (h : e = .readStatus1 ∨ e = .waitIdle) :
      ∃ j, ownTxn j = some u ∧ losesArray j = false ∧ (j = .resetDevice → i = .resetDevice ∨ (i = .reset ∧ n = 2)) := by
    rcases h with rfl | rfl <;> exact ⟨.readSr1, hu, rfl, nofun⟩
  have hown {t : Txn} (h : e = .txn t) (ho : ownTxn i = some t) :
      ∃ j, ownTxn j = some u ∧ losesArray j = false ∧ (j = .resetDevice → i = .resetDevice ∨ (i = .reset ∧ n = 2)) := by
    subst h
    cases hu
    exact ⟨i, ho, hi, .inl⟩
  have hsrWrite {t : Txn} (hx : expansionOf i = [writeEnableElem, .waitIdle, .txn t]) (ho : ownTxn i = some t) :
      ∃ j, ownTxn j = some u ∧ losesArray j = false ∧ (j = .resetDevice → i = .resetDevice ∨ (i = .reset ∧ n = 2)) := by
    have hmem := List.mem_of_getElem? he
    rw [hx] at hmem
    simp only [List.mem_cons, List.not_mem_nil, or_false] at hmem
    rcases hmem with rfl | rfl | rfl
    · exact ⟨.writeEnable, hu, rfl, nofun⟩
    · exact hstatus (.inr rfl)
    · exact hown rfl ho
  cases i with
  | pageProgram | sectorErase | blockErase32k | blockErase64k | chipErase | blockErase | powerDown => cases hi
  | writeSr1 | writeSr2 | writeSr3 => exact hsrWrite rfl rfl
  | readSr1 | isBusy | isWriteEnabled | blockProtectBits =>
    exact hstatus (.inl (List.mem_singleton.mp (List.mem_of_getElem? he)))
  | waitIdle => exact hstatus (.inr (List.mem_singleton.mp (List.mem_of_getElem? he)))
  | reset =>
    match n with
    | 0 => cases he; exact ⟨.enableReset, hu, rfl, nofun⟩
    | 1 => cases he; cases hu
    | 2 => cases he; exact ⟨.resetDevice, hu, rfl, fun _ => .inr ⟨rfl, rfl⟩⟩
    | n + 3 => cases he
  | _ => exact hown (List.mem_singleton.mp (List.mem_of_getElem? he)) rfl

/-- Settles O23: at a ready chip every command such an instruction completes has an effect that leaves the array. -/
theorem instructionsThatDoNotStoreLeaveTheArray : Obligations.InstructionsThatDoNotStoreLeaveTheArray := by
  rintro i s t hinv hs rfl h hc hr harmed hpp hse h32 h64 hbe hce hpd
  obtain ⟨-, -, hpos, -⟩ := hinv
  have hkeeps : losesArray (requestInstr s.req) = false := by
    cases hi : requestInstr s.req with
    | pageProgram addr wdata => exact absurd hi (hpp addr wdata)
    | sectorErase addr => exact absurd hi (hse addr)
    | blockErase32k addr => exact absurd hi (h32 addr)
    | blockErase64k addr => exact absurd hi (h64 addr)
    | blockErase addr bop => exact absurd hi (hbe addr bop)
    | chipErase => exact absurd hi hce
    | powerDown => exact absurd hi hpd
    | _ => rfl
  refine SameArray.known (execStep_sameArray (execStep_of_exec h) (hpos hs) fun e u he hu _ hrx => ?_)
  obtain ⟨j, hj, hjkeeps, hreset⟩ := keepingCommand_of_elem hkeeps he hu
  have hnotBlock (addr : Addr) (bop : Byte) : j ≠ .blockErase addr bop := by
    rintro rfl
    cases hjkeeps
  refine chipDeselect_sameArray hj hnotBlock hrx ?_
  rw [receive_ready j hr]
  obtain ⟨hflash, hblank⟩ := commandEffect_sameArray (c := disarm j s.env.chip) hjkeeps (by
    rintro rfl
    exact harmed (hreset rfl))
  obtain ⟨hflash', hblank'⟩ := disarm_sameArray j s.env.chip
  exact ⟨hflash.trans hflash', hblank.trans hblank'⟩

end Sys2Proof.Machine
end
